-- ==== Sys2Proof/Word.lean ====
section
/-! DEFINITION. The word types of the block's ports (spec 00 R9, 10 R24, R25; 43 R149). -/

namespace Sys2Proof

/-- The command word `req.cmd` (spec 30 R50). -/
abbrev CmdWord := BitVec 8

/-- A binary64 word, the operand port and the result port (spec 10 R24, R25; 30 R70). -/
abbrev Word64 := BitVec 64

/-- The 32-bit word that carries a minifloat pattern (spec 00 R9). -/
abbrev PatternWord := BitVec 32

/-- A binary64 fraction, also the wide mantissa of the rounding unit (spec 30 R70; 43 R149). -/
abbrev Fraction := BitVec 52

end Sys2Proof
end

