-- ==== Sys2Proof/Syntax.lean ====
section
/-! DEFINITION. What the block is asked to do: the records at its ports (spec 10 R24; 43 R149) and the
instructions they stand for, one constructor for each row of spec/opcode_table.json. -/

namespace Sys2Proof

/-- The five rounding modes (spec 30 R56; 00 R17). -/
inductive RoundingMode where
  | nearestEven
  | nearestAway
  | truncate
  | ceiling
  | floor
  deriving DecidableEq, Repr

/-- The descriptor bundle `req.fmt` as the port carries it (spec 10 R24). -/
structure FmtPorts where
  sign         : BitVec 2
  exp          : BitVec 4
  sig          : BitVec 5
  biasExplicit : Bool
  bias         : BitVec 12
  rmDefault    : BitVec 3
  deriving DecidableEq, Repr

/-- A request as the block accepts it (spec 10 R24). -/
structure Request where
  cmd : CmdWord
  a   : Word64
  fmt : FmtPorts
  deriving DecidableEq, Repr

/-- The inputs of `minifloat_rounding_unit` as its ports carry them: the mode select (spec 30 R60), the
wide mantissa, the sign, the encoder's `e` on its 12-bit signal (spec 42 R125), the biased native
exponent `e0`, and the descriptor (spec 43 R149). -/
structure UnitPorts where
  sel  : BitVec 3
  mant : Fraction
  s0   : Bool
  e    : BitVec 12
  e0   : BitVec 11
  fmt  : FmtPorts
  deriving DecidableEq, Repr

/-- What one step takes up: a request, or an activation of the rounding unit by itself. -/
inductive Input where
  | command  (r : Request)
  | rounding (u : UnitPorts)
  deriving DecidableEq, Repr

/-- The descriptor's parameters as integers, before validation (spec 00 R7; 30 R62). `bias` is `none`
where the default bias is asked for. `rmDefault` is the code of the default rounding mode: 0 to 4 as in
spec 30 R56, 7 for "absent". -/
structure FmtArgs where
  signBits        : Nat
  exponentBits    : Nat
  significandBits : Nat
  bias            : Option Int
  rmDefault       : Nat
  deriving DecidableEq, Repr

/-- The operands of the rounding unit (spec 43 R149). -/
structure UnitArgs where
  mant : Fraction
  s0   : Bool
  e    : Nat
  e0   : BitVec 11
  fmt  : FmtArgs
  deriving DecidableEq, Repr

/-- The instructions: the eight commands (spec 30 R58) with the operands spec 30 R61 writes beside them,
and the five strategies of the rounding unit (spec 30 R60). -/
inductive Instr where
  | chkfmt (f : FmtArgs)
  | encNe  (f : FmtArgs) (x : Word64)
  | encNa  (f : FmtArgs) (x : Word64)
  | encTr  (f : FmtArgs) (x : Word64)
  | encCe  (f : FmtArgs) (x : Word64)
  | encFl  (f : FmtArgs) (x : Word64)
  | encDef (f : FmtArgs) (x : Word64)
  | dec    (f : FmtArgs) (p : PatternWord)
  | ruNe   (u : UnitArgs)
  | ruNa   (u : UnitArgs)
  | ruTr   (u : UnitArgs)
  | ruCe   (u : UnitArgs)
  | ruFl   (u : UnitArgs)
  deriving DecidableEq, Repr

/-- The mnemonic of an instruction, as spec/opcode_table.json spells it (spec 30 R58, R60). -/
def Instr.mnemonic : Instr → String
  | .chkfmt _   => "CHKFMT"
  | .encNe _ _  => "ENC.NE"
  | .encNa _ _  => "ENC.NA"
  | .encTr _ _  => "ENC.TR"
  | .encCe _ _  => "ENC.CE"
  | .encFl _ _  => "ENC.FL"
  | .encDef _ _ => "ENC.DEF"
  | .dec _ _    => "DEC"
  | .ruNe _     => "RU.NE"
  | .ruNa _     => "RU.NA"
  | .ruTr _     => "RU.TR"
  | .ruCe _     => "RU.CE"
  | .ruFl _     => "RU.FL"

/-- Why a command word or a mode select names no instruction. Every reason about a command word gives
the IllegalCommand response (spec 60 R182). -/
inductive DecodeError where
  /-- `cmd[7:5]` is not `000` (spec 30 R55). -/
  | reservedBits
  /-- `op = 11` (spec 30 R52). -/
  | illegalOp
  /-- an ENC rounding field of `101` or `110` (spec 30 R53). -/
  | illegalRounding
  /-- a nonzero `cmd[4:2]` on CHKFMT or DEC (spec 30 R54). -/
  | roundingNotZero
  /-- a mode select of 5, 6 or 7, which never reaches the rounding unit (spec 42 R121; 43 R155). -/
  | unassignedSelect
  deriving DecidableEq, Repr

end Sys2Proof
end

