-- ==== Sys2Proof/WellFormed.lean ====
section
/-! DEFINITION. Well-formed instructions: those whose operands fit the ports that carry them (spec 10 R24;
30 R62; 42 R125). A well-formed instruction may still carry an invalid descriptor: the ports are wider
than the legal ranges on purpose (spec 10 R24), and the block answers such a request with InvalidFormat. -/

namespace Sys2Proof

/-- The bias fits `fmt.bias[11:0]` in two's complement (spec 30 R62). -/
def biasFits : Option Int → Bool
  | none   => true
  | some b => decide (-2048 ≤ b) && decide (b ≤ 2047)

/-- Every parameter fits its field of `req.fmt` (spec 10 R24; 30 R62). -/
def FmtArgs.wf (f : FmtArgs) : Bool :=
  decide (f.signBits < 4) && decide (f.exponentBits < 16) && decide (f.significandBits < 32)
    && biasFits f.bias && decide (f.rmDefault < 8)

/-- The unit's operands fit its ports (spec 43 R149; 42 R125). -/
def UnitArgs.wf (u : UnitArgs) : Bool :=
  decide (u.e < 4096) && u.fmt.wf

/-- The instruction has an encoding. -/
def Instr.wf : Instr → Bool
  | .chkfmt f   => f.wf
  | .encNe f _  => f.wf
  | .encNa f _  => f.wf
  | .encTr f _  => f.wf
  | .encCe f _  => f.wf
  | .encFl f _  => f.wf
  | .encDef f _ => f.wf
  | .dec f _    => f.wf
  | .ruNe u     => u.wf
  | .ruNa u     => u.wf
  | .ruTr u     => u.wf
  | .ruCe u     => u.wf
  | .ruFl u     => u.wf

end Sys2Proof
end

