-- ==== Sys2Proof/Decode.lean ====
section
/-! DEFINITION. From the ports to an instruction, total and rejecting by name, and back (spec 30 sections 1
to 3). The decoder is written from the field layout of spec 30 R51 to R55; the encoder from the opcode map
of spec 30 R58 and R60. -/

namespace Sys2Proof

/-- `cmd[1:0]`, the operation select (spec 30 R51). -/
def cmdOp (c : CmdWord) : Nat := (c.extractLsb' 0 2).toNat

/-- `cmd[4:2]`, the rounding mode field (spec 30 R51). -/
def cmdRm (c : CmdWord) : Nat := (c.extractLsb' 2 3).toNat

/-- `cmd[7:5]`, the reserved field (spec 30 R51). -/
def cmdRes (c : CmdWord) : Nat := (c.extractLsb' 5 3).toNat

/-- Reading the descriptor bundle as integers (spec 30 R62). -/
def FmtPorts.read (f : FmtPorts) : FmtArgs where
  signBits        := f.sign.toNat
  exponentBits    := f.exp.toNat
  significandBits := f.sig.toNat
  bias            := if f.biasExplicit then some f.bias.toInt else none
  rmDefault       := f.rmDefault.toNat

/-- The pattern word of DEC, `req.a[31:0]` (spec 30 R63; 41 R101). -/
def decOperand (a : Word64) : PatternWord := a.extractLsb' 0 32

/-- The instruction a request asks for, told from `cmd` alone (spec 30 R50 to R55). -/
def decode (r : Request) : Except DecodeError Instr :=
  if cmdRes r.cmd ≠ 0 then .error .reservedBits
  else
    match cmdOp r.cmd with
    | 0 => if cmdRm r.cmd = 0 then .ok (.chkfmt r.fmt.read) else .error .roundingNotZero
    | 1 =>
      match cmdRm r.cmd with
      | 0 => .ok (.encNe r.fmt.read r.a)
      | 1 => .ok (.encNa r.fmt.read r.a)
      | 2 => .ok (.encTr r.fmt.read r.a)
      | 3 => .ok (.encCe r.fmt.read r.a)
      | 4 => .ok (.encFl r.fmt.read r.a)
      | 7 => .ok (.encDef r.fmt.read r.a)
      | _ => .error .illegalRounding
    | 2 => if cmdRm r.cmd = 0 then .ok (.dec r.fmt.read (decOperand r.a)) else .error .roundingNotZero
    | _ => .error .illegalOp

/-- The operands at the rounding unit's ports (spec 43 R149). -/
def UnitPorts.read (u : UnitPorts) : UnitArgs where
  mant := u.mant
  s0   := u.s0
  e    := u.e.toNat
  e0   := u.e0
  fmt  := u.fmt.read

/-- The strategy the mode select names (spec 30 R60; 43 R155). -/
def decodeUnit (u : UnitPorts) : Except DecodeError Instr :=
  match u.sel.toNat with
  | 0 => .ok (.ruNe u.read)
  | 1 => .ok (.ruNa u.read)
  | 2 => .ok (.ruTr u.read)
  | 3 => .ok (.ruCe u.read)
  | 4 => .ok (.ruFl u.read)
  | _ => .error .unassignedSelect

/-- The instruction one step takes up. -/
def decodeInput : Input → Except DecodeError Instr
  | .command r  => decode r
  | .rounding u => decodeUnit u

/-! The encoder. -/

/-- The bundle that carries the parameters (spec 30 R62; the bias field is 0 where the default bias is
asked for, since `fmt.bias` is then ignored). -/
def FmtArgs.toPorts (f : FmtArgs) : FmtPorts where
  sign         := BitVec.ofNat 2 f.signBits
  exp          := BitVec.ofNat 4 f.exponentBits
  sig          := BitVec.ofNat 5 f.significandBits
  biasExplicit := f.bias.isSome
  bias         := BitVec.ofInt 12 (f.bias.getD 0)
  rmDefault    := BitVec.ofNat 3 f.rmDefault

/-- The ports that carry the unit's operands under a mode select. -/
def UnitArgs.toPorts (sel : BitVec 3) (u : UnitArgs) : UnitPorts where
  sel  := sel
  mant := u.mant
  s0   := u.s0
  e    := BitVec.ofNat 12 u.e
  e0   := u.e0
  fmt  := u.fmt.toPorts

/-- A command on the request port (spec 30 R61: "Every instruction assembles to one request"). -/
def assemble (cmd : CmdWord) (a : Word64) (f : FmtArgs) : Input :=
  .command { cmd := cmd, a := a, fmt := f.toPorts }

/-- The port contents that stand for an instruction: the command words of spec 30 R58 and the mode
selects of spec 30 R60. CHKFMT has no data operand and DEC's stands in `a[31:0]` (spec 30 R63). -/
def encode : Instr → Input
  | .chkfmt f   => assemble 0x00#8 0#64 f
  | .encNe f x  => assemble 0x01#8 x f
  | .encNa f x  => assemble 0x05#8 x f
  | .encTr f x  => assemble 0x09#8 x f
  | .encCe f x  => assemble 0x0D#8 x f
  | .encFl f x  => assemble 0x11#8 x f
  | .encDef f x => assemble 0x1D#8 x f
  | .dec f p    => assemble 0x02#8 (p.setWidth 64) f
  | .ruNe u     => .rounding (u.toPorts 0#3)
  | .ruNa u     => .rounding (u.toPorts 1#3)
  | .ruTr u     => .rounding (u.toPorts 2#3)
  | .ruCe u     => .rounding (u.toPorts 3#3)
  | .ruFl u     => .rounding (u.toPorts 4#3)

/-! The opcode table's numbering. -/

/-- The bundle of zeros: a request whose descriptor port is all zero. -/
def FmtPorts.zeros : FmtPorts :=
  { sign := 0#2, exp := 0#4, sig := 0#5, biasExplicit := false, bias := 0#12, rmDefault := 0#3 }

/-- The source's unsigned test format `(0,1,1)` with the default bias and no default mode (spec 30 R72). -/
def FmtPorts.unsignedTest : FmtPorts :=
  { sign := 0#2, exp := 1#4, sig := 1#5, biasExplicit := false, bias := 0#12, rmDefault := 7#3 }

/-- An opcode table row's word as port contents: a row of fewer than 8 bits is a mode select of the
rounding unit, whose other inputs are idle (zero, in the format `(0,1,1)`); every other row is a command
word, with operands of zeros (notes/assumptions/9.md and 10.md). -/
def tableInput (nbits w : Nat) : Input :=
  if nbits < 8 then
    .rounding { sel := BitVec.ofNat 3 w, mant := 0#52, s0 := false, e := 0#12, e0 := 0#11,
                fmt := FmtPorts.unsignedTest }
  else
    .command { cmd := BitVec.ofNat 8 w, a := 0#64, fmt := FmtPorts.zeros }

/-- The instruction the decoder reads from an opcode table row's word. -/
def decodeTableWord (nbits w : Nat) : Option Instr :=
  match decodeInput (tableInput nbits w) with
  | .ok i    => some i
  | .error _ => none

end Sys2Proof
end

