-- ==== Sys2Proof/Config.lean ====
section
/-! DEFINITION. What is fixed for the block: the native format's constants (spec 30 R70, R71), and the one
value the spec leaves free. `LATENCY` (spec 00 R8) is no constant here: the model has no time
(spec 70 R206; notes/assumptions/11.md). -/

namespace Sys2Proof

/-- `NMAX`, the native maximum exponent field (spec 30 R71). -/
def Config.nativeMaxExponent : Nat := 2047

/-- The native exponent bias (spec 30 R71). -/
def Config.nativeBias : Int := 1023

/-- The width of the native fraction (spec 30 R70). -/
def Config.nativeFractionBits : Nat := 52

/-- FREE VALUE (spec 41 R106; 00 R8; notes/assumptions/5.md): the draw behind `NaNFrac`. It has no body,
so nothing in Lean can tell its value. The first argument numbers the draws, so that every DEC of a NaN
takes a fresh one; the others are DEC's operands, so that no proof can relate the fractions of two
different requests either. A draw `v` stands for the fraction `v + 1`, so every nonzero 52-bit fraction
is possible and zero is not. -/
opaque Config.nanFracDraw : (draw : Nat) → FmtArgs → PatternWord → Fin 4503599627370495

end Sys2Proof
end

