-- ==== Sys2Proof/Machine/State.lean ====
section
/-! DEFINITION. The state of the block as plain data, and the records it is made of. The spec gives the
block no architectural state (spec 10 R20 to R30): what stands here is the traffic at its ports (requests
in flight, responses given, the rounding unit's ports) and the model's own counter of draws. -/

namespace Sys2Proof.Machine

/-- A response (spec 10 R25). -/
structure Response where
  status : BitVec 2
  r      : Word64
  deriving DecidableEq, Repr

/-- The errors of the block, each with the values its record carries (spec 60 R180 to R182). -/
inductive BlockError where
  | invalidFormat  (param : Nat) (value : Int)
  | illegalCommand (cmd : CmdWord)
  deriving DecidableEq, Repr

/-- A descriptor that has passed validation, with the short names of spec 00 R16: `signBits`,
`exponentBits`, `significandBits`, the effective bias (spec 40 R84) and the effective default rounding
mode (spec 40 R87). -/
structure Desc where
  S   : Nat
  E   : Nat
  M   : Nat
  B   : Int
  RMD : RoundingMode
  deriving DecidableEq, Repr

/-- The classes of a minifloat pattern (spec 30 R65). -/
inductive PatternClass where
  | zero
  | subnormal
  | normal
  | infinity
  | nan
  deriving DecidableEq, Repr

/-- What the rounding unit gives: the strategy's increment (spec 43 R150 to R154), the pair after the
carry (R155, R156), the pair after the overflow policy (R157), and, for a negative input to an unsigned
format, the pattern of the unsigned rule (R160). -/
structure UnitOutput where
  inc       : Nat
  eCarried  : Nat
  rCarried  : Nat
  e         : Nat
  r         : Nat
  saturated : Option Nat
  deriving DecidableEq, Repr

/-- The faults of the machine: there are none. "The block has no fault state and no stuck state"
(spec 60 R195). The errors the spec describes are responses, that is, next states. -/
inductive Fault
  deriving DecidableEq, Repr

/-- The refusals of the model. -/
inductive Refusal where
  /-- Raised by `exec` for an instruction that has no meaning yet. Safe: the machine stops. No arm of
  this model raises it. -/
  | notModelled (mnemonic : String)
  /-- Raised by ENC and DEC with a valid descriptor outside XR: "The model refuses ENC and DEC with such
  a descriptor" (spec 40 R89; 60 R183). Safe: the machine stops where the hardware may go on. -/
  | unsupportedRange
  /-- Raised by RU.* when the unit is run by itself on inputs outside spec 43 R149: no valid descriptor
  in XR, or `e` above 2045. The encoder never gives such inputs. Safe: the machine stops. -/
  | unitInputOutOfRange
  /-- Raised by the step when the unit is run by itself with mode select 5, 6 or 7, which never reaches
  it (spec 42 R121; 43 R155). Safe: the machine stops. -/
  | unitSelectUnassigned
  deriving DecidableEq, Repr

/-- The state (INVENTORY.md, State). -/
structure State where
  /-- Requests accepted and not yet answered, oldest first (spec 10 R24, R29; 20 R44). -/
  inFlight  : List Request
  /-- Responses given, oldest first (spec 10 R25; 20 R44). -/
  responses : List Response
  /-- The inputs of the rounding unit when it is run by itself (spec 43 R149; notes/assumptions/7.md). -/
  unitIn    : Option UnitPorts
  /-- What the rounding unit last gave when it was run by itself (notes/assumptions/7.md). -/
  unitOut   : Option UnitOutput
  /-- The model's own: how many NaN fractions have been drawn (spec 41 R106; notes/assumptions/5.md). -/
  nanDraws  : Nat
  deriving DecidableEq, Repr

/-- The block right after reset: no request in flight and no response (spec 70 R200 to R202). The values
of `unitIn`, `unitOut` and `nanDraws` are DESIGN CHOICES (notes/assumptions/5.md and 7.md). -/
def State.reset : State where
  inFlight  := []
  responses := []
  unitIn    := none
  unitOut   := none
  nanDraws  := 0

end Sys2Proof.Machine
end

