-- ==== Sys2Proof/Machine/Ops.lean ====
section
/-! DEFINITION. The named operations over the state: taking up a request, giving a response, giving an
error response, the draw of a NaN fraction, and what the host can do. The block has no registers and no
memory (spec 10 R20, R22), so there is no access operation; an error is no trap (spec 60 R185), so the one
shared exception operation is `State.raise`, and there is no return from it (spec 60 R186). -/

namespace Sys2Proof.Machine

/-- What a step, and each meaning, answers. -/
abbrev Outcome := Host.Outcome State Fault Refusal

/-- Give one response, after all earlier ones (spec 10 R21; 20 R44). -/
def State.respond (rsp : Response) (s : State) : State :=
  { s with responses := s.responses ++ [rsp] }

/-- Give the result of an operation, status 0 (spec 10 R26). -/
def State.respondOk (r : Word64) (s : State) : State :=
  s.respond { status := 0#2, r := r }

/-- The response that reports an error: InvalidFormat with `r[7:0] = param` and `r[63:8] = sext_56(value)`
(spec 60 R181), IllegalCommand with `r = zext_64(cmd)` (spec 60 R182). -/
def errorResponse : BlockError → Response
  | .invalidFormat param value => { status := 1#2, r := BitVec.ofInt 56 value ++ BitVec.ofNat 8 param }
  | .illegalCommand cmd        => { status := 2#2, r := cmd.setWidth 64 }

/-- End the request with an error response. "Nothing is saved, no mode changes, control goes nowhere, and
the next request is served normally" (spec 60 R185). -/
def State.raise (err : BlockError) (s : State) : State :=
  s.respond (errorResponse err)

/-- `NaNFrac`, the fraction that the next draw gives: nonzero, and nothing else is known of it
(spec 41 R106). -/
def drawnFraction (draw : Nat) (f : FmtArgs) (p : PatternWord) : Fraction :=
  BitVec.ofNat 52 ((Config.nanFracDraw draw f p).val + 1)

/-- Use up one draw (spec 70 R205: "a fresh draw each time"). -/
def State.countDraw (s : State) : State :=
  { s with nanDraws := s.nanDraws + 1 }

/-- Present the rounding unit's outputs. -/
def State.presentUnit (o : UnitOutput) (s : State) : State :=
  { s with unitOut := some o }

/-- What the next step takes up, and the state without it: an activation of the rounding unit by itself
(notes/assumptions/7.md), else the oldest request in flight (spec 20 R44), else nothing. -/
def State.takeInput (s : State) : Option (Input × State) :=
  match s.unitIn with
  | some u => some (.rounding u, { s with unitIn := none })
  | none =>
    match s.inFlight with
    | []        => none
    | r :: rest => some (.command r, { s with inFlight := rest })

/-- What happens to an input that names no instruction: a request gets the IllegalCommand response
(spec 30 R59; 60 R182); the rounding unit by itself has no meaning for its unassigned selects
(spec 43 R155). -/
def rejectInput (inp : Input) (s : State) : Outcome :=
  match inp with
  | .command r  => .next (s.raise (.illegalCommand r.cmd))
  | .rounding _ => .refused .unitSelectUnassigned

/-- Put an input where the next step takes it up, before everything else that waits. -/
def State.place (inp : Input) (s : State) : State :=
  match inp with
  | .command r  => { s with unitIn := none, inFlight := r :: s.inFlight }
  | .rounding u => { s with unitIn := some u }

/-- What the host does to have a request answered: the block accepts it at once, behind those in flight
(spec 70 R201, R204; 20 R44). -/
def State.submit (r : Request) (s : State) : State :=
  { s with inFlight := s.inFlight ++ [r] }

/-- A reset while the block runs: it "discards every request in flight", and none of them receives a
response (spec 70 R200). The responses the host already has, and the count of draws, are not the block's
to forget (notes/assumptions/12.md). -/
def State.applyReset (s : State) : State :=
  { s with inFlight := [], unitIn := none, unitOut := none }

end Sys2Proof.Machine
end

