-- ==== Sys2Proof/Machine/Operands.lean ====
section
/-! DEFINITION. The operands' fields: the binary64 word (spec 30 R70) and the minifloat pattern
(spec 30 R63 to R68), with the derived values of a descriptor (spec 40 R88, R89) they depend on. -/

namespace Sys2Proof.Machine

/-- `exponentDelta = B - 1023` (spec 40 R88). -/
def Desc.delta (d : Desc) : Int := d.B - Config.nativeBias

/-- `maxExponent = 2^E - 1` (spec 40 R88). -/
def Desc.maxE (d : Desc) : Nat := 2 ^ d.E - 1

/-- `totalBits = S + E + M` (spec 40 R88). -/
def Desc.T (d : Desc) : Nat := d.S + d.E + d.M

/-- The exact-range condition XR: `B + M <= 1022` (spec 40 R89). -/
def Desc.xr (d : Desc) : Bool := decide (d.B + d.M ≤ 1022)

/-- `s0`, bit 63 of a binary64 word (spec 30 R70; 42 R122). -/
def f64Sign (w : Word64) : Bool := w.getLsbD 63

/-- `e0`, the raw biased exponent field, bits 62 to 52 (spec 30 R70; 42 R122; 90 C1). -/
def f64Exp (w : Word64) : Nat := (w.extractLsb' 52 11).toNat

/-- `m0`, the fraction, bits 51 to 0 (spec 30 R70; 42 R122). -/
def f64Frac (w : Word64) : Nat := (w.extractLsb' 0 52).toNat

/-- `F64(s, ex, fr)`, the word with these fields (spec 30 R70). -/
def f64 (s : Bool) (ex : Nat) (fr : Fraction) : Word64 :=
  (BitVec.ofBool s ++ BitVec.ofNat 11 ex) ++ fr

/-- The word is a NaN (spec 30 R70). -/
def f64IsNaN (w : Word64) : Bool :=
  decide (f64Exp w = Config.nativeMaxExponent) && decide (f64Frac w ≠ 0)

/-- The word is an infinity (spec 30 R70). -/
def f64IsInf (w : Word64) : Bool :=
  decide (f64Exp w = Config.nativeMaxExponent) && decide (f64Frac w = 0)

/-- The word is finite: neither an infinity nor a NaN (spec 00 R16, "source finite"). -/
def f64IsFinite (w : Word64) : Bool := decide (f64Exp w < Config.nativeMaxExponent)

/-- DEC's operand `p`: the pattern word modulo `2^T`, so that the bits from `T` up are ignored
(spec 30 R63; 41 R101; 90 C3). -/
def patternOf (d : Desc) (w : PatternWord) : Nat := w.toNat % 2 ^ d.T

/-- The sign of a pattern: bit `E + M` when the format is signed, else 0 (spec 30 R64; 41 R102). -/
def patSign (d : Desc) (p : Nat) : Bool := decide (d.S = 1) && p.testBit (d.E + d.M)

/-- The exponent field `p[M+E-1:M]` (spec 30 R64; 41 R102). -/
def patExp (d : Desc) (p : Nat) : Nat := p / 2 ^ d.M % 2 ^ d.E

/-- The significand field `p[M-1:0]` (spec 30 R64; 41 R102). -/
def patFrac (d : Desc) (p : Nat) : Nat := p % 2 ^ d.M

/-- The class of a pattern, tested in the order of spec 41 R109 (spec 30 R65). -/
def classify (d : Desc) (p : Nat) : PatternClass :=
  if patExp d p = 0 then
    if patFrac d p = 0 then .zero else .subnormal
  else if patExp d p = d.maxE then
    if patFrac d p = 0 then .infinity else .nan
  else .normal

/-- `+Inf = maxE × 2^M` (spec 30 R68). -/
def Desc.posInf (d : Desc) : Nat := d.maxE * 2 ^ d.M

/-- `−0 = 2^(E+M)`, the pattern of the sign bit alone, in a signed format (spec 30 R68). -/
def Desc.signBit (d : Desc) : Nat := 2 ^ (d.E + d.M)

/-- The largest finite pattern, `+Inf − 1` (spec 30 R68). -/
def Desc.maxFinite (d : Desc) : Nat := d.posInf - 1

/-- The all-ones pattern `2^T − 1`, the format's NaN encoding (spec 30 R67, R68). -/
def Desc.allOnes (d : Desc) : Nat := 2 ^ d.T - 1

end Sys2Proof.Machine
end

