-- ==== Sys2Proof/Machine/Flags.lean ====
section
/-! DEFINITION. The block has no status flags and no condition codes (spec 10 R27): nothing here is state.
These are the condition bits inside the rounding unit (spec 43 R149) and the sticky bit of the encoder's
underflow path (spec 42 R126), together with the leading and trailing zero counts the spec also states
them by (spec 00 R10; 41 R102, R104; 43 R149). -/

namespace Sys2Proof.Machine

/-- `sh = 52 - M`, the count of low bits removed by rounding (spec 00 R16; 43 R149). -/
def Desc.sh (d : Desc) : Nat := Config.nativeFractionBits - d.M

/-- `q`, the retained part (spec 43 R149). -/
def retained (mant sh : Nat) : Nat := mant / 2 ^ sh

/-- `rem`, the dropped part (spec 43 R149). -/
def dropped (mant sh : Nat) : Nat := mant % 2 ^ sh

/-- `rb = rem[sh-1]`, "the bit immediately below the cut" (spec 43 R149). -/
def roundBit (mant sh : Nat) : Bool := (dropped mant sh).testBit (sh - 1)

/-- `low`: some bit below the round bit is set (spec 43 R149). -/
def lowerBits (mant sh : Nat) : Bool := decide (dropped mant sh % 2 ^ (sh - 1) ≠ 0)

/-- `nz`: some dropped bit is set (spec 43 R149). -/
def anyDropped (mant sh : Nat) : Bool := decide (dropped mant sh ≠ 0)

/-- `q[0]`, "the retained mantissa's new least-significant bit" (spec 43 R154). -/
def retainedOdd (mant sh : Nat) : Bool := decide (retained mant sh % 2 = 1)

/-- A right shift with the sticky bit: the shifted value, with bit 0 set when a nonzero bit was shifted
out (spec 42 R126). -/
def shiftSticky (w k : Nat) : Nat := (w >>> k) ||| (if w % 2 ^ k ≠ 0 then 1 else 0)

/-- `clz32(v)`, the count of leading zero bits of a 32-bit word (spec 00 R10). -/
def clz32 (v : BitVec 32) : Nat := if v = 0#32 then 32 else 31 - Nat.log2 v.toNat

/-- `ctz`, the count of trailing zero bits of a nonzero word of at most `fuel` bits (spec 00 R10). -/
def ctz : (fuel : Nat) → Nat → Nat
  | 0, _        => 0
  | fuel + 1, v => if v % 2 = 1 then 0 else ctz fuel (v / 2) + 1

end Sys2Proof.Machine
end

