-- ==== Sys2Proof/Machine/Format.lean ====
section
/-! DEFINITION. The format-descriptor check that every command makes, and CHKFMT (spec 40). -/

namespace Sys2Proof.Machine

/-- The effective bias `B` (spec 40 R84). -/
def effectiveBias (f : FmtArgs) : Int :=
  match f.bias with
  | some b => b
  | none   => 2 ^ (f.exponentBits - 1) - 1

/-- The bias range invariant, transcribed as written (spec 40 R85). -/
def biasInRange (f : FmtArgs) : Bool :=
  decide (effectiveBias f - 1023 ≥ -1023) && decide ((2 : Int) ^ f.exponentBits - effectiveBias f ≤ 1024)

/-- The effective default rounding mode `RMD`, `none` for a code that is neither a mode nor 7
(spec 40 R86, R87; 30 R56). -/
def defaultMode : Nat → Option RoundingMode
  | 0 => some .nearestEven
  | 1 => some .nearestAway
  | 2 => some .truncate
  | 3 => some .ceiling
  | 4 => some .floor
  | 7 => some .nearestEven
  | _ => none

/-- The code of a rounding mode (spec 30 R56). -/
def modeCode : RoundingMode → Nat
  | .nearestEven => 0
  | .nearestAway => 1
  | .truncate    => 2
  | .ceiling     => 3
  | .floor       => 4

/-- The descriptor check, in the order of spec 40 R92; the first failing check is the one reported
(spec 40 R80 to R87). -/
def validate (f : FmtArgs) : Except BlockError Desc :=
  if ¬(f.signBits = 0 ∨ f.signBits = 1) then .error (.invalidFormat 1 f.signBits)
  else if f.exponentBits < 1 ∨ f.exponentBits > 8 then .error (.invalidFormat 2 f.exponentBits)
  else if f.significandBits < 1 ∨ f.significandBits > 23 then .error (.invalidFormat 3 f.significandBits)
  else if ¬(biasInRange f = true) then .error (.invalidFormat 4 (effectiveBias f))
  else
    match defaultMode f.rmDefault with
    | none     => .error (.invalidFormat 5 f.rmDefault)
    | some rmd =>
      .ok { S := f.signBits, E := f.exponentBits, M := f.significandBits, B := effectiveBias f, RMD := rmd }

/-- The summary word of CHKFMT (spec 40 R91): `T` at bit 0, `maxE` at bit 8, `B` at bit 16,
`delta mod 2^12` at bit 32, `RMD` at bit 48 and XR at bit 56. -/
def summary (d : Desc) : Word64 :=
  BitVec.ofNat 64 d.T
    ||| (BitVec.ofNat 64 d.maxE <<< 8)
    ||| (BitVec.ofInt 64 d.B <<< 16)
    ||| ((BitVec.ofInt 12 d.delta).setWidth 64 <<< 32)
    ||| (BitVec.ofNat 64 (modeCode d.RMD) <<< 48)
    ||| ((BitVec.ofBool d.xr).setWidth 64 <<< 56)

/-- Every command validates its request's descriptor before anything else; an invalid one gives the
InvalidFormat response and nothing else (spec 40 R80). -/
def withDescriptor (f : FmtArgs) (s : State) (k : Desc → Outcome) : Outcome :=
  match validate f with
  | .error err => .next (s.raise err)
  | .ok d      => k d

/-- ENC and DEC: a valid descriptor outside XR is refused (spec 40 R89; 60 R183, R184). -/
def withExactRange (f : FmtArgs) (s : State) (k : Desc → Outcome) : Outcome :=
  withDescriptor f s fun d => if d.xr then k d else .refused .unsupportedRange

/-- CHKFMT (spec 40 R90). -/
def execChkfmt (f : FmtArgs) (s : State) : Outcome :=
  withDescriptor f s fun d => .next (s.respondOk (summary d))

end Sys2Proof.Machine
end

