-- ==== Sys2Proof/Machine/Rounding.lean ====
section
/-! DEFINITION. `minifloat_rounding_unit`: the five strategies, the carry, the overflow policy and the
unsigned rule (spec 43), and the five strategies run by themselves (RU.*). -/

namespace Sys2Proof.Machine

/-- RU.TR (spec 43 R150). -/
def incTruncate (_mant _sh : Nat) (_s0 : Bool) : Nat := 0

/-- RU.CE (spec 43 R151). -/
def incCeiling (mant sh : Nat) (s0 : Bool) : Nat := if anyDropped mant sh && !s0 then 1 else 0

/-- RU.FL (spec 43 R152). -/
def incFloor (mant sh : Nat) (s0 : Bool) : Nat := if anyDropped mant sh && s0 then 1 else 0

/-- RU.NA (spec 43 R153). -/
def incNearestAway (mant sh : Nat) (_s0 : Bool) : Nat := if roundBit mant sh then 1 else 0

/-- RU.NE (spec 43 R154). -/
def incNearestEven (mant sh : Nat) (_s0 : Bool) : Nat :=
  if roundBit mant sh && (lowerBits mant sh || retainedOdd mant sh) then 1 else 0

/-- The increment of the strategy that the mode selects (spec 43 R155). -/
def increment (rm : RoundingMode) (mant sh : Nat) (s0 : Bool) : Nat :=
  match rm with
  | .nearestEven => incNearestEven mant sh s0
  | .nearestAway => incNearestAway mant sh s0
  | .truncate    => incTruncate mant sh s0
  | .ceiling     => incCeiling mant sh s0
  | .floor       => incFloor mant sh s0

/-- Mantissa carry: `(e, r)` (spec 43 R156). -/
def carry (d : Desc) (e r : Nat) : Nat × Nat :=
  if r = 2 ^ d.M then (e + 1, 0) else (e, r)

/-- A finite source past range stays finite in these modes (spec 43 R157; 90 C2). -/
def staysFinite (rm : RoundingMode) (s0 : Bool) : Bool :=
  match rm with
  | .truncate    => true
  | .ceiling     => s0
  | .floor       => !s0
  | .nearestEven => false
  | .nearestAway => false

/-- The overflow policy: `(e, r)` (spec 43 R157). -/
def overflow (d : Desc) (rm : RoundingMode) (s0 : Bool) (e0 e r : Nat) : Nat × Nat :=
  if d.maxE ≤ e then
    if e0 ≠ Config.nativeMaxExponent ∧ staysFinite rm s0 = true then (d.maxE - 1, 2 ^ d.M - 1)
    else (d.maxE, 0)
  else (e, r)

/-- The unsigned rule for a negative input (spec 43 R160). -/
def unsignedNegative (d : Desc) (rm : RoundingMode) (e r : Nat) : Nat :=
  if rm = .truncate ∨ rm = .ceiling then 0
  else if e = 0 ∧ r = 0 then 0
  else d.allOnes

/-- The whole unit: strategy, carry, overflow policy, unsigned rule (spec 43 R149 to R160). -/
def roundingUnit (d : Desc) (rm : RoundingMode) (mant : Nat) (s0 : Bool) (e0 e : Nat) : UnitOutput :=
  let inc := increment rm mant d.sh s0
  let carried := carry d e (retained mant d.sh + inc)
  let final := overflow d rm s0 e0 carried.1 carried.2
  { inc := inc
    eCarried := carried.1
    rCarried := carried.2
    e := final.1
    r := final.2
    saturated := if d.S = 0 ∧ s0 = true then some (unsignedNegative d rm final.1 final.2) else none }

/-- Running the unit by itself on inputs of spec 43 R149: a valid descriptor in XR and `e` at most 2045.
Other inputs never reach it (notes/assumptions/8.md). -/
def runUnit (rm : RoundingMode) (u : UnitArgs) (s : State) : Outcome :=
  match validate u.fmt with
  | .error _ => .refused .unitInputOutOfRange
  | .ok d =>
    if d.xr = true ∧ u.e ≤ 2045 then
      .next (s.presentUnit (roundingUnit d rm u.mant.toNat u.s0 u.e0.toNat u.e))
    else .refused .unitInputOutOfRange

/-- RU.NE, nearest, ties to even (spec 43 R154). -/
def execRuNe (u : UnitArgs) (s : State) : Outcome := runUnit .nearestEven u s

/-- RU.NA, nearest, ties away from zero (spec 43 R153). -/
def execRuNa (u : UnitArgs) (s : State) : Outcome := runUnit .nearestAway u s

/-- RU.TR, toward zero (spec 43 R150). -/
def execRuTr (u : UnitArgs) (s : State) : Outcome := runUnit .truncate u s

/-- RU.CE, toward plus infinity (spec 43 R151). -/
def execRuCe (u : UnitArgs) (s : State) : Outcome := runUnit .ceiling u s

/-- RU.FL, toward minus infinity (spec 43 R152). -/
def execRuFl (u : UnitArgs) (s : State) : Outcome := runUnit .floor u s

end Sys2Proof.Machine
end

