-- ==== Sys2Proof/Machine/Encoder.lean ====
section
/-! DEFINITION. `fp_minifloat_encoder` and the six ENC commands (spec 42). -/

namespace Sys2Proof.Machine

/-- Rebias: `e = e0 + delta`, a signed integer (spec 42 R124). -/
def rebias (d : Desc) (e0 : Nat) : Int := (e0 : Int) + d.delta

/-- `W`: the significand of the source, with the implicit bit only for a normal one (spec 42 R126, R129). -/
def fullSignificand (e0 m0 : Nat) : Nat := (if e0 ≠ 0 then 2 ^ 52 else 0) + m0

/-- `k`, the shift of the underflow path (spec 42 R126). -/
def underflowShift (e : Int) : Nat := (min (1 - e) 53).toNat

/-- What the encoder hands to the rounding unit, `(mant, e)`: by the underflow path when `e <= 0`
(spec 42 R126), else by the normal path (spec 42 R128). -/
def align (d : Desc) (e0 m0 : Nat) : Nat × Nat :=
  if rebias d e0 ≤ 0 then (shiftSticky (fullSignificand e0 m0) (underflowShift (rebias d e0)), 0)
  else (m0, (rebias d e0).toNat)

/-- Packing (spec 42 R134). -/
def pack (d : Desc) (s0 : Bool) (e r : Nat) : Nat :=
  ((((if d.S = 1 ∧ s0 = true then 1 else 0) <<< d.E) ||| e) <<< d.M) ||| r

/-- `encode(a, fmt, rm)`: the pattern of a binary64 word (spec 42 R138). -/
def encodeF64 (d : Desc) (rm : RoundingMode) (a : Word64) : Nat :=
  if f64IsNaN a then d.allOnes
  else
    let aligned := align d (f64Exp a) (f64Frac a)
    let out := roundingUnit d rm aligned.1 (f64Sign a) (f64Exp a) aligned.2
    match out.saturated with
    | some p => p
    | none   => pack d (f64Sign a) out.e out.r

/-- The common part of the ENC commands (spec 42 section 2); `rm` is the effective mode, which may be the
descriptor's own (spec 30 R57). -/
def encodeCommand (f : FmtArgs) (x : Word64) (rm : Desc → RoundingMode) (s : State) : Outcome :=
  withExactRange f s fun d => .next (s.respondOk (BitVec.ofNat 64 (encodeF64 d (rm d) x)))

/-- ENC.NE (spec 42 R140). -/
def execEncNe (f : FmtArgs) (x : Word64) (s : State) : Outcome :=
  encodeCommand f x (fun _ => .nearestEven) s

/-- ENC.NA (spec 42 R141). -/
def execEncNa (f : FmtArgs) (x : Word64) (s : State) : Outcome :=
  encodeCommand f x (fun _ => .nearestAway) s

/-- ENC.TR (spec 42 R142). -/
def execEncTr (f : FmtArgs) (x : Word64) (s : State) : Outcome :=
  encodeCommand f x (fun _ => .truncate) s

/-- ENC.CE (spec 42 R143). -/
def execEncCe (f : FmtArgs) (x : Word64) (s : State) : Outcome :=
  encodeCommand f x (fun _ => .ceiling) s

/-- ENC.FL (spec 42 R144). -/
def execEncFl (f : FmtArgs) (x : Word64) (s : State) : Outcome :=
  encodeCommand f x (fun _ => .floor) s

/-- ENC.DEF: the mode is the request's own descriptor's (spec 42 R145; 30 R57). -/
def execEncDef (f : FmtArgs) (x : Word64) (s : State) : Outcome :=
  encodeCommand f x (fun d => d.RMD) s

end Sys2Proof.Machine
end

