-- ==== Sys2Proof/Machine/Decoder.lean ====
section
/-! DEFINITION. `fp_minifloat_decoder` and the DEC command (spec 41). -/

namespace Sys2Proof.Machine

/-- `z = M - h`, the shifts that bring the highest set bit `h` of a subnormal's significand to the
implicit place (spec 41 R104). -/
def subnormalShift (d : Desc) (mf : Nat) : Nat := d.M - Nat.log2 mf

/-- The word of a subnormal pattern (spec 41 R104). -/
def decodeSubnormal (d : Desc) (sg : Bool) (mf : Nat) : Word64 :=
  let z := subnormalShift d mf
  f64 sg (1 - (z : Int) - d.delta).toNat (BitVec.ofNat 52 (((mf <<< z) % 2 ^ d.M) <<< (52 - d.M)))

/-- The word of a normal pattern (spec 41 R107). -/
def decodeNormal (d : Desc) (sg : Bool) (ef mf : Nat) : Word64 :=
  f64 sg ((ef : Int) - d.delta).toNat (BitVec.ofNat 52 (mf <<< (52 - d.M)))

/-- The binary64 word of a pattern (spec 41 R103 to R109); `nanFrac` is read for a NaN only. -/
def decodePattern (d : Desc) (p : Nat) (nanFrac : Fraction) : Word64 :=
  match classify d p with
  | .zero      => f64 (patSign d p) 0 0#52
  | .subnormal => decodeSubnormal d (patSign d p) (patFrac d p)
  | .infinity  => f64 (patSign d p) Config.nativeMaxExponent 0#52
  | .nan       => f64 (patSign d p) Config.nativeMaxExponent nanFrac
  | .normal    => decodeNormal d (patSign d p) (patExp d p) (patFrac d p)

/-- The state after DEC has looked at its pattern: a NaN uses up one draw (spec 41 R106). -/
def State.afterDecoding (c : PatternClass) (s : State) : State :=
  match c with
  | .nan                                      => s.countDraw
  | .zero | .subnormal | .normal | .infinity => s

/-- DEC (spec 41 R108). -/
def execDec (f : FmtArgs) (w : PatternWord) (s : State) : Outcome :=
  withExactRange f s fun d =>
    .next ((s.afterDecoding (classify d (patternOf d w))).respondOk
      (decodePattern d (patternOf d w) (drawnFraction s.nanDraws f w)))

end Sys2Proof.Machine
end

