-- ==== Sys2Proof/Machine/Dispatch.lean ====
section
/-! DEFINITION. One arm for each constructor of Instr, each one direct call of its meaning. -/

namespace Sys2Proof.Machine

def exec (i : Instr) (s : State) : Host.Outcome State Fault Refusal :=
  match i with
  | .chkfmt f => Sys2Proof.Machine.execChkfmt f s
  | .encNe f x => Sys2Proof.Machine.execEncNe f x s
  | .encNa f x => Sys2Proof.Machine.execEncNa f x s
  | .encTr f x => Sys2Proof.Machine.execEncTr f x s
  | .encCe f x => Sys2Proof.Machine.execEncCe f x s
  | .encFl f x => Sys2Proof.Machine.execEncFl f x s
  | .encDef f x => Sys2Proof.Machine.execEncDef f x s
  | .dec f p => Sys2Proof.Machine.execDec f p s
  | .ruNe u => Sys2Proof.Machine.execRuNe u s
  | .ruNa u => Sys2Proof.Machine.execRuNa u s
  | .ruTr u => Sys2Proof.Machine.execRuTr u s
  | .ruCe u => Sys2Proof.Machine.execRuCe u s
  | .ruFl u => Sys2Proof.Machine.execRuFl u s

end Sys2Proof.Machine
end

