-- ==== Sys2Proof/Machine/Step.lean ====
section
/-! DEFINITION. One step: take up the next input, decode it, run it. An idle block stays as it is
(notes/assumptions/4.md). -/

namespace Sys2Proof.Machine

/-- Answer the next input (spec 10 R21, R31; 60 R195). -/
def step (s : State) : Host.Outcome State Fault Refusal :=
  match s.takeInput with
  | none          => .next s
  | some (inp, t) =>
    match decodeInput inp with
    | .ok i    => exec i t
    | .error _ => rejectInput inp t

/-- `s` with an opcode table row's word where the next step takes it up (notes/assumptions/1.md and
10.md). -/
def State.withFetchWord (s : State) (nbits w : Nat) : State :=
  s.place (tableInput nbits w)

end Sys2Proof.Machine
end

