-- ==== Sys2Proof/Machine/Value.lean ====
section
/-! DEFINITION. The exact values that patterns and binary64 words stand for, as rationals
(spec 00 R14; 30 R66, R70). No meaning computes with them: the statements are made in terms of them. -/

namespace Sys2Proof.Machine

/-- `(-1)^s` (spec 30 R66, R70). -/
def signFactor (s : Bool) : ℚ := if s then -1 else 1

/-- The value of a finite binary64 word (spec 30 R70). -/
def f64Value (w : Word64) : ℚ :=
  if f64Exp w = 0 then signFactor (f64Sign w) * f64Frac w * 2 ^ (-1074 : ℤ)
  else signFactor (f64Sign w) * (2 ^ 52 + f64Frac w) * 2 ^ ((f64Exp w : ℤ) - 1075)

/-- The value of a finite pattern (spec 30 R66). -/
def patternValue (d : Desc) (p : Nat) : ℚ :=
  if patExp d p = 0 then signFactor (patSign d p) * patFrac d p * 2 ^ (1 - d.B - d.M)
  else signFactor (patSign d p) * (2 ^ d.M + patFrac d p) * 2 ^ ((patExp d p : ℤ) - d.B - d.M)

end Sys2Proof.Machine
end

