-- ==== Sys2Proof/Safety.lean ====
section
/-! DEFINITION. The terms the claims use: which descriptors are legal and in exact range, which commands are
legal, the meaning of a request as one function of the request (spec 10 R31), and what a well-formed
sequence of responses is. Nothing of the machine calls these. -/

namespace Sys2Proof

/-- The legal ranges of the parameters (spec 00 R7; 40 R81 to R86). -/
abbrev FmtArgs.Legal (f : FmtArgs) : Prop :=
  (f.signBits = 0 ∨ f.signBits = 1)
    ∧ (1 ≤ f.exponentBits ∧ f.exponentBits ≤ 8)
    ∧ (1 ≤ f.significandBits ∧ f.significandBits ≤ 23)
    ∧ (Machine.effectiveBias f - 1023 ≥ -1023
        ∧ (2 : Int) ^ f.exponentBits - Machine.effectiveBias f ≤ 1024)
    ∧ (f.rmDefault ≤ 4 ∨ f.rmDefault = 7)

/-- A legal descriptor in XR (spec 40 R89). -/
abbrev FmtArgs.Exact (f : FmtArgs) : Prop :=
  f.Legal ∧ Machine.effectiveBias f + f.significandBits ≤ 1022

/-- The mode a `defaultRounding` code stands for, where it is legal (spec 40 R87; 30 R56). -/
def defaultModeOf (code : Nat) : RoundingMode :=
  if code = 1 then .nearestAway
  else if code = 2 then .truncate
  else if code = 3 then .ceiling
  else if code = 4 then .floor
  else .nearestEven

/-- The values of a legal descriptor (spec 00 R16; 40 R84, R87, R88). -/
def descOf (f : FmtArgs) : Machine.Desc where
  S   := f.signBits
  E   := f.exponentBits
  M   := f.significandBits
  B   := Machine.effectiveBias f
  RMD := defaultModeOf f.rmDefault

/-- The eight legal command words (spec 30 R58). -/
def legalCommands : List CmdWord := [0x00#8, 0x01#8, 0x05#8, 0x09#8, 0x0D#8, 0x11#8, 0x1D#8, 0x02#8]

/-- The field errors that make a command word illegal (spec 30 R52 to R55; 60 R182). -/
def illegalByField (c : CmdWord) : Bool :=
  decide (cmdRes c ≠ 0)
    || decide (cmdOp c = 3)
    || (decide (cmdOp c = 1) && (decide (cmdRm c = 5) || decide (cmdRm c = 6)))
    || ((decide (cmdOp c = 0) || decide (cmdOp c = 2)) && decide (cmdRm c ≠ 0))

/-- The ENC command with an explicit mode (spec 30 R56, R58). -/
def encWith : RoundingMode → FmtArgs → Word64 → Instr
  | .nearestEven => .encNe
  | .nearestAway => .encNa
  | .truncate    => .encTr
  | .ceiling     => .encCe
  | .floor       => .encFl

/-- The strategy of a mode as an instruction (spec 30 R60). -/
def ruWith : RoundingMode → UnitArgs → Instr
  | .nearestEven => .ruNe
  | .nearestAway => .ruNa
  | .truncate    => .ruTr
  | .ceiling     => .ruCe
  | .floor       => .ruFl

/-- The six ENC commands on one descriptor and operand (spec 30 R58). -/
def encCommands (f : FmtArgs) (x : Word64) : List Instr :=
  [.encNe f x, .encNa f x, .encTr f x, .encCe f x, .encFl f x, .encDef f x]

/-- The eight commands on one descriptor and operand (spec 30 R58). -/
def allCommands (f : FmtArgs) (x : Word64) (p : PatternWord) : List Instr :=
  .chkfmt f :: .dec f p :: encCommands f x

/-- The five strategies on one set of operands (spec 30 R60). -/
def allStrategies (u : UnitArgs) : List Instr := [.ruNe u, .ruNa u, .ruTr u, .ruCe u, .ruFl u]

/-- The mirror of a mode under a change of sign (spec 43 R162). -/
def mirror : RoundingMode → RoundingMode
  | .nearestEven => .nearestEven
  | .nearestAway => .nearestAway
  | .truncate    => .truncate
  | .ceiling     => .floor
  | .floor       => .ceiling

/-- A request outside the model: ENC or DEC with a valid descriptor outside XR (spec 60 R183). -/
abbrev Request.OutsideXR (r : Request) : Prop :=
  r.cmd ∈ legalCommands ∧ r.cmd ≠ 0x00#8 ∧ r.fmt.read.Legal ∧ ¬r.fmt.read.Exact

namespace Machine

/-- The values a valid descriptor in XR has (spec 40 R81 to R83, R89, R94). -/
abbrev Desc.InXR (d : Desc) : Prop :=
  d.S ≤ 1 ∧ (1 ≤ d.E ∧ d.E ≤ 8) ∧ (1 ≤ d.M ∧ d.M ≤ 23) ∧ 0 ≤ d.B ∧ d.B + d.M ≤ 1022

/-- The rounding mode of an ENC command word, `rm_eff` (spec 30 R57). -/
def effectiveMode (c : CmdWord) (d : Desc) : RoundingMode :=
  if cmdRm c = 7 then d.RMD else defaultModeOf (cmdRm c)

/-- `op(req, nanFrac)`, the meaning of the block as one function of the request, in the priority order of
spec 60 R184 (spec 10 R31). -/
def op (r : Request) (nanFrac : Fraction) : Except Refusal Response :=
  if r.cmd ∉ legalCommands then .ok { status := 2#2, r := r.cmd.setWidth 64 }
  else
    match validate r.fmt.read with
    | .error err => .ok (errorResponse err)
    | .ok d =>
      if r.cmd = 0x00#8 then .ok { status := 0#2, r := summary d }
      else if 1022 < d.B + d.M then .error .unsupportedRange
      else if r.cmd = 0x02#8 then
        .ok { status := 0#2, r := decodePattern d (patternOf d (decOperand r.a)) nanFrac }
      else .ok { status := 0#2, r := BitVec.ofNat 64 (encodeF64 d (effectiveMode r.cmd d) r.a) }

/-- A response that the block can give (spec 10 R26; 60 R181, R182): status 3 is never produced, an
InvalidFormat response names one of the five parameters, and an IllegalCommand response carries an
8-bit word that is none of the legal commands. -/
abbrev Response.Sound (rsp : Response) : Prop :=
  rsp.status ≠ 3#2
    ∧ (rsp.status = 1#2 → 1 ≤ (rsp.r.extractLsb' 0 8).toNat ∧ (rsp.r.extractLsb' 0 8).toNat ≤ 5)
    ∧ (rsp.status = 2#2 → rsp.r.toNat < 256 ∧ rsp.r.extractLsb' 0 8 ∉ legalCommands)

/-- Every response given so far is one the block can give. -/
abbrev State.ResponsesSound (s : State) : Prop := ∀ rsp ∈ s.responses, rsp.Sound

/-- What the unit gave last is in the ranges of spec 42 R125 and 43 R150 to R155, whatever the format. -/
abbrev State.UnitOutputSound (s : State) : Prop :=
  ∀ o ∈ s.unitOut, o.inc ≤ 1 ∧ o.eCarried ≤ 2046 ∧ o.rCarried < 2 ^ 23 ∧ o.e ≤ 255 ∧ o.r < 2 ^ 23

/-- The invariant of the block. -/
abbrev State.Inv (s : State) : Prop := s.ResponsesSound ∧ s.UnitOutputSound

/-- The pattern with these fields, sign above exponent above significand (spec 30 R64). -/
def patternFrom (d : Desc) (sg : Bool) (ef mf : Nat) : Nat :=
  (if sg then 2 ^ (d.E + d.M) else 0) + ef * 2 ^ d.M + mf

/-- `p` is the pattern with sign `sg`, exponent field `ef` and significand field `mf` (spec 30 R64). -/
abbrev HasFields (d : Desc) (p : Nat) (sg : Bool) (ef mf : Nat) : Prop :=
  p = patternFrom d sg ef mf ∧ ef < 2 ^ d.E ∧ mf < 2 ^ d.M ∧ (d.S = 0 → sg = false)

/-- The magnitude from which the nearest modes overflow (spec 43 R158). -/
def overflowThreshold (d : Desc) : ℚ :=
  if 2 ≤ d.maxE then (2 ^ (d.M + 2) - 1) * 2 ^ ((d.maxE : ℤ) - 2 - d.B - d.M)
  else (2 ^ (d.M + 1) - 1) * 2 ^ (-d.B - d.M)

/-- The pattern's value is a finite number (spec 30 R65). -/
abbrev FinitePattern (d : Desc) (p : Nat) : Prop :=
  classify d p = .zero ∨ classify d p = .subnormal ∨ classify d p = .normal

end Machine

end Sys2Proof
end

