-- ==== Sys2Proof/Certificates/Slice0/Obligations.lean ====
section
/-! DEFINITION. The statements about the minifloat CORE, from the numbered rules of spec/. -/

open Sys2Proof Sys2Proof.Machine

/-! ## Commands (spec 30) -/

/-- Spec 30 R58 and R60: the legal words, written out bit by bit, and what each stands for. -/
def Obligations.LegalWordsDecodeToTheirOperation : Prop :=
  (∀ (a : Word64) (fmt : FmtPorts),
    decode ⟨0b00000000#8, a, fmt⟩ = .ok (.chkfmt fmt.read)
      ∧ decode ⟨0b00000001#8, a, fmt⟩ = .ok (.encNe fmt.read a)
      ∧ decode ⟨0b00000101#8, a, fmt⟩ = .ok (.encNa fmt.read a)
      ∧ decode ⟨0b00001001#8, a, fmt⟩ = .ok (.encTr fmt.read a)
      ∧ decode ⟨0b00001101#8, a, fmt⟩ = .ok (.encCe fmt.read a)
      ∧ decode ⟨0b00010001#8, a, fmt⟩ = .ok (.encFl fmt.read a)
      ∧ decode ⟨0b00011101#8, a, fmt⟩ = .ok (.encDef fmt.read a)
      ∧ decode ⟨0b00000010#8, a, fmt⟩ = .ok (.dec fmt.read (a.extractLsb' 0 32)))
  ∧ ∀ u : UnitPorts,
    (u.sel = 0b000#3 → decodeUnit u = .ok (.ruNe u.read))
      ∧ (u.sel = 0b001#3 → decodeUnit u = .ok (.ruNa u.read))
      ∧ (u.sel = 0b010#3 → decodeUnit u = .ok (.ruTr u.read))
      ∧ (u.sel = 0b011#3 → decodeUnit u = .ok (.ruCe u.read))
      ∧ (u.sel = 0b100#3 → decodeUnit u = .ok (.ruFl u.read))

/-- Spec 30 R53, R54, R55, R59 and 60 R182: a word that is none of the eight legal ones, so in particular one
with a field error, gives the IllegalCommand response with the word recorded, whatever the operand and the
descriptor. -/
def Obligations.IllegalWordsGiveIllegalCommand : Prop :=
  ∀ (s : State) (r : Request) (rest : List Request),
    s.unitIn = none → s.inFlight = r :: rest →
      (r.cmd ∉ legalCommands
        ∨ r.cmd.extractLsb' 5 3 ≠ 0b000#3
        ∨ r.cmd.extractLsb' 0 2 = 0b11#2
        ∨ (r.cmd.extractLsb' 0 2 = 0b01#2
            ∧ (r.cmd.extractLsb' 2 3 = 0b101#3 ∨ r.cmd.extractLsb' 2 3 = 0b110#3))
        ∨ ((r.cmd.extractLsb' 0 2 = 0b00#2 ∨ r.cmd.extractLsb' 0 2 = 0b10#2)
            ∧ r.cmd.extractLsb' 2 3 ≠ 0b000#3)) →
      step s = .next { s with
        inFlight  := rest
        responses := s.responses ++ [{ status := 2#2, r := r.cmd.setWidth 64 }] }

/-- Decode and encode agree on every well-formed instruction, with every operand at every value its port
admits (spec 30 R58, R60 to R63). -/
def Obligations.DecodeOfEncodeIsTheInstruction : Prop :=
  ∀ i : Instr, i.wf = true → decodeInput (encode i) = .ok i

/-- Encoding what a request decodes to gives the request back, but for the bits that the spec says are
ignored: `fmt.bias` when the default bias is asked for, `a` for CHKFMT, `a[63:32]` for DEC
(spec 30 R62, R63). The spec only says that the bias bits are ignored: that the encoder writes 0 there is
the model's choice (notes/assumptions/15.md). -/
def Obligations.EncodeOfDecodeLosesIgnoredBitsOnly : Prop :=
  ∀ (r : Request) (i : Instr), decode r = .ok i →
    ∃ r' : Request, encode i = .command r'
      ∧ r'.cmd = r.cmd
      ∧ r'.fmt = (if r.fmt.biasExplicit then r.fmt else { r.fmt with bias := 0#12 })
      ∧ (r.cmd ≠ 0x00#8 → r'.a.extractLsb' 0 32 = r.a.extractLsb' 0 32)
      ∧ (r.cmd ≠ 0x00#8 → r.cmd ≠ 0x02#8 → r'.a = r.a)

/-- What the ports carry always decodes to a well-formed instruction (spec 10 R24; 30 R62). -/
def Obligations.DecodedInstructionsFitThePorts : Prop :=
  ∀ (inp : Input) (i : Instr), decodeInput inp = .ok i → i.wf = true

/-- A step runs the instruction it decodes: the oldest request in flight leaves the queue, or the
activation of the rounding unit leaves its inputs, and the instruction acts on what remains
(spec 10 R21; 20 R44; notes/assumptions/1.md and 7.md). A block with nothing to take up stays as it is: the
model's choice (notes/assumptions/4.md). -/
def Obligations.StepRunsTheDecodedInstruction : Prop :=
  (∀ (s : State) (r : Request) (rest : List Request) (i : Instr),
    s.unitIn = none → s.inFlight = r :: rest → decode r = .ok i →
      step s = exec i { s with inFlight := rest })
  ∧ (∀ (s : State) (u : UnitPorts) (i : Instr),
    s.unitIn = some u → decodeUnit u = .ok i → step s = exec i { s with unitIn := none })
  ∧ ∀ s : State, s.unitIn = none → s.inFlight = [] → step s = .next s

/-! ## The descriptor check and CHKFMT (spec 40) -/

/-- Spec 40 R81, R82, R83, R85, R86 and R92: each check, and that the first failing one in this order is
reported. -/
def Obligations.FirstFailingCheckIsReported : Prop :=
  ∀ f : FmtArgs,
    (¬(f.signBits = 0 ∨ f.signBits = 1) → validate f = .error (.invalidFormat 1 f.signBits))
    ∧ ((f.signBits = 0 ∨ f.signBits = 1) →
      ((f.exponentBits < 1 ∨ 8 < f.exponentBits) → validate f = .error (.invalidFormat 2 f.exponentBits))
      ∧ ((1 ≤ f.exponentBits ∧ f.exponentBits ≤ 8) →
        ((f.significandBits < 1 ∨ 23 < f.significandBits) →
          validate f = .error (.invalidFormat 3 f.significandBits))
        ∧ ((1 ≤ f.significandBits ∧ f.significandBits ≤ 23) →
          (¬(effectiveBias f - 1023 ≥ -1023 ∧ (2 : Int) ^ f.exponentBits - effectiveBias f ≤ 1024) →
            validate f = .error (.invalidFormat 4 (effectiveBias f)))
          ∧ ((effectiveBias f - 1023 ≥ -1023 ∧ (2 : Int) ^ f.exponentBits - effectiveBias f ≤ 1024) →
            (f.rmDefault = 5 ∨ f.rmDefault = 6) →
              validate f = .error (.invalidFormat 5 f.rmDefault)))))

/-- Spec 40 R84, R87 and R88: a legal descriptor is accepted, with its effective bias, its effective default
mode and its derived values; an illegal one is not. -/
def Obligations.LegalDescriptorHasItsDerivedValues : Prop :=
  ∀ f : FmtArgs, (¬f.Legal → ∃ err, validate f = .error err) ∧ (f.Legal →
    ∃ d : Desc, validate f = .ok d
      ∧ d.S = f.signBits ∧ d.E = f.exponentBits ∧ d.M = f.significandBits
      ∧ (∀ b, f.bias = some b → d.B = b)
      ∧ (f.bias = none → d.B = 2 ^ (f.exponentBits - 1) - 1
          ∧ [0, 1, 3, 7, 15, 31, 63, 127][f.exponentBits - 1]? = some d.B)
      ∧ (f.rmDefault ≤ 4 → modeCode d.RMD = f.rmDefault)
      ∧ (f.rmDefault = 7 → d.RMD = .nearestEven)
      ∧ d.delta = d.B - 1023
      ∧ d.maxE = 2 ^ f.exponentBits - 1
      ∧ d.T = f.signBits + f.exponentBits + f.significandBits
      ∧ 2 ≤ d.T ∧ d.T ≤ 32)

/-- Spec 40 R94: the default bias always passes the bias check, an explicit one if and only if it is not
negative; through the 12-bit port these are 0 to 2047. -/
def Obligations.BiasCheckIsNonNegativity : Prop :=
  ∀ f : FmtArgs, 1 ≤ f.exponentBits → f.exponentBits ≤ 8 →
    (f.bias = none → biasInRange f = true ∧ 0 ≤ effectiveBias f
      ∧ (2 : Int) ^ f.exponentBits - effectiveBias f = 2 ^ (f.exponentBits - 1) + 1
      ∧ (2 : Int) ^ f.exponentBits - effectiveBias f ≤ 129)
    ∧ (∀ b, f.bias = some b → (biasInRange f = true ↔ 0 ≤ b))
    ∧ (∀ b : BitVec 12, f.bias = some b.toInt →
        (biasInRange f = true ↔ 0 ≤ b.toInt ∧ b.toInt ≤ 2047))

/-- Spec 40 R91: CHKFMT answers with status 0 and the summary word, field by field, every other bit 0. -/
def Obligations.ChkfmtAnswersWithTheSummary : Prop :=
  ∀ (f : FmtArgs) (s : State), f.wf = true → f.Legal →
    ∃ r : Word64,
      exec (.chkfmt f) s = .next { s with responses := s.responses ++ [{ status := 0#2, r := r }] }
      ∧ (r.extractLsb' 0 6).toNat = f.signBits + f.exponentBits + f.significandBits
      ∧ (r.extractLsb' 8 8).toNat = 2 ^ f.exponentBits - 1
      ∧ ((r.extractLsb' 16 12).toNat : Int) = effectiveBias f
      ∧ ((r.extractLsb' 32 12).toNat : Int) = (effectiveBias f - 1023) % 2 ^ 12
      ∧ (r.extractLsb' 48 3).toNat = (if f.rmDefault = 7 then 0 else f.rmDefault)
      ∧ (r.getLsbD 56 = true ↔ effectiveBias f + f.significandBits ≤ 1022)
      ∧ r &&& ~~~0x01070FFF0FFFFF3F#64 = 0#64

/-- Spec 40 R80, R93 and 60 R181: with an invalid descriptor every command gives the InvalidFormat response,
with the parameter's code and the offending value, and nothing else. -/
def Obligations.InvalidDescriptorGivesInvalidFormat : Prop :=
  ∀ (f : FmtArgs) (x : Word64) (p : PatternWord) (param : Nat) (value : Int) (i : Instr) (s : State),
    f.wf = true → validate f = .error (.invalidFormat param value) → i ∈ allCommands f x p →
      ∃ r : Word64,
        exec i s = .next { s with responses := s.responses ++ [{ status := 1#2, r := r }] }
        ∧ 1 ≤ param ∧ param ≤ 5
        ∧ (r.extractLsb' 0 8).toNat = param
        ∧ (r.extractLsb' 8 56).toInt = value

/-- Spec 40 R89 and 60 R183: ENC and DEC are refused exactly on a valid descriptor outside XR, and CHKFMT
is never refused. -/
def Obligations.OutsideXrOnlyEncAndDecAreRefused : Prop :=
  ∀ (f : FmtArgs) (x : Word64) (p : PatternWord) (s : State),
    (∀ i ∈ .dec f p :: encCommands f x,
      exec i s = .refused .unsupportedRange
        ↔ f.Legal ∧ 1022 < effectiveBias f + f.significandBits)
    ∧ ∃ t, exec (.chkfmt f) s = .next t

/-! ## Fields and values (spec 30) -/

/-- Spec 30 R64 and 41 R102: the fields of a pattern are read where they lie. -/
def Obligations.PatternFieldsAreReadWhereTheyLie : Prop :=
  ∀ (d : Desc) (p : Nat) (sg : Bool) (ef mf : Nat), d.S ≤ 1 → HasFields d p sg ef mf →
    patSign d p = sg ∧ patExp d p = ef ∧ patFrac d p = mf ∧ p < 2 ^ d.T

/-- Spec 30 R70: `F64` places the three fields, and they are read back. -/
def Obligations.BinarySixtyFourFieldsRoundTrip : Prop :=
  (∀ (s : Bool) (ex : Nat) (fr : Fraction), ex < 2048 →
    f64Sign (f64 s ex fr) = s ∧ f64Exp (f64 s ex fr) = ex ∧ f64Frac (f64 s ex fr) = fr.toNat)
  ∧ ∀ w : Word64, f64 (f64Sign w) (f64Exp w) (BitVec.ofNat 52 (f64Frac w)) = w

/-- Spec 30 R68: the special patterns and their classes. -/
def Obligations.SpecialPatternsHaveTheirClass : Prop :=
  ∀ d : Desc, d.InXR →
    classify d 0 = .zero
    ∧ (d.S = 1 → classify d (2 ^ (d.E + d.M)) = .zero ∧ patSign d (2 ^ (d.E + d.M)) = true)
    ∧ classify d (d.maxE * 2 ^ d.M) = .infinity ∧ patSign d (d.maxE * 2 ^ d.M) = false
    ∧ (d.S = 1 → classify d (2 ^ (d.E + d.M) + d.maxE * 2 ^ d.M) = .infinity
        ∧ patSign d (2 ^ (d.E + d.M) + d.maxE * 2 ^ d.M) = true)
    ∧ d.maxFinite = (d.maxE - 1) * 2 ^ d.M + (2 ^ d.M - 1)
    ∧ FinitePattern d d.maxFinite
    ∧ (∀ p, p < d.maxE * 2 ^ d.M → patternValue d p ≤ patternValue d d.maxFinite)
    ∧ 0 < patternValue d 1
    ∧ (∀ p, 0 < p → p < d.maxE * 2 ^ d.M → patternValue d 1 ≤ patternValue d p)
    ∧ classify d (2 ^ d.T - 1) = .nan

/-- Spec 30 R69: among the patterns with sign 0, pattern order and value order agree. -/
def Obligations.PatternOrderIsValueOrder : Prop :=
  ∀ (d : Desc) (p q : Nat), d.InXR → p < q →
    (q < d.maxE * 2 ^ d.M → patternValue d p < patternValue d q)
    ∧ (q = d.maxE * 2 ^ d.M → FinitePattern d p ∧ classify d q = .infinity)

/-! ## DEC (spec 41) -/

/-- Spec 41 R103. -/
def Obligations.DecOfZero : Prop :=
  ∀ (f : FmtArgs) (w : PatternWord) (sg : Bool) (s : State), f.Exact →
    HasFields (descOf f) (w.toNat % 2 ^ (descOf f).T) sg 0 0 →
      exec (.dec f w) s
        = .next { s with responses := s.responses ++ [{ status := 0#2, r := f64 sg 0 0#52 }] }

/-- Spec 41 R104: `h` is the highest set bit of `mf`, `z = M - h`. -/
def Obligations.DecOfSubnormal : Prop :=
  ∀ (f : FmtArgs) (w : PatternWord) (sg : Bool) (mf h : Nat) (s : State), f.Exact →
    HasFields (descOf f) (w.toNat % 2 ^ (descOf f).T) sg 0 mf →
      2 ^ h ≤ mf → mf < 2 ^ (h + 1) →
      ∃ nexp : Nat,
        h ≤ f.significandBits - 1
        ∧ f.significandBits - h = clz32 (BitVec.ofNat 32 (mf * 2 ^ (32 - f.significandBits))) + 1
        ∧ (nexp : Int) = 1 - ((f.significandBits - h : Nat) : Int) - (effectiveBias f - 1023)
        ∧ (nexp : Int) = 1024 - effectiveBias f - ((f.significandBits - h : Nat) : Int)
        ∧ 2 ≤ nexp ∧ nexp ≤ 1023
        ∧ exec (.dec f w) s
          = .next { s with responses := s.responses ++ [{
              status := 0#2
              r := f64 sg nexp (BitVec.ofNat 52
                (mf * 2 ^ (f.significandBits - h) % 2 ^ f.significandBits
                  * 2 ^ (52 - f.significandBits))) }] }

/-- Spec 41 R105. -/
def Obligations.DecOfInfinity : Prop :=
  ∀ (f : FmtArgs) (w : PatternWord) (sg : Bool) (s : State), f.Exact →
    HasFields (descOf f) (w.toNat % 2 ^ (descOf f).T) sg (2 ^ f.exponentBits - 1) 0 →
      (f.signBits = 0 → sg = false)
      ∧ exec (.dec f w) s
        = .next { s with responses := s.responses ++ [{ status := 0#2, r := f64 sg 2047 0#52 }] }

/-- Spec 41 R106: the fraction is some nonzero one (a free value), and the draw is used up. The count of
draws is the model's own (notes/assumptions/5.md). -/
def Obligations.DecOfNan : Prop :=
  ∀ (f : FmtArgs) (w : PatternWord) (sg : Bool) (mf : Nat) (s : State), f.Exact →
    HasFields (descOf f) (w.toNat % 2 ^ (descOf f).T) sg (2 ^ f.exponentBits - 1) mf → mf ≠ 0 →
      ∃ nanFrac : Fraction, nanFrac ≠ 0#52
        ∧ exec (.dec f w) s = .next { s with
            responses := s.responses ++ [{ status := 0#2, r := f64 sg 2047 nanFrac }]
            nanDraws  := s.nanDraws + 1 }

/-- Spec 41 R107. -/
def Obligations.DecOfNormal : Prop :=
  ∀ (f : FmtArgs) (w : PatternWord) (sg : Bool) (ef mf : Nat) (s : State), f.Exact →
    HasFields (descOf f) (w.toNat % 2 ^ (descOf f).T) sg ef mf →
      0 < ef → ef < 2 ^ f.exponentBits - 1 →
      ∃ nexp : Nat,
        (nexp : Int) = ef - (effectiveBias f - 1023)
        ∧ 2 ≤ nexp ∧ nexp ≤ 1277
        ∧ exec (.dec f w) s
          = .next { s with responses := s.responses ++ [{
              status := 0#2
              r := f64 sg nexp (BitVec.ofNat 52 (mf * 2 ^ (52 - f.significandBits))) }] }

/-- Spec 41 R101, 30 R63 and 90 C3: the bits of `a` from `T` up never change DEC's answer (but for the
fraction of a NaN, which is a draw). -/
def Obligations.DecIgnoresTheBitsAboveT : Prop :=
  ∀ (fmt : FmtPorts) (a a' : Word64), fmt.read.Exact →
    a.toNat % 2 ^ (descOf fmt.read).T = a'.toNat % 2 ^ (descOf fmt.read).T →
    classify (descOf fmt.read) (a.toNat % 2 ^ (descOf fmt.read).T) ≠ .nan →
      ∃ (i i' : Instr) (v : Word64),
        decode ⟨0x02#8, a, fmt⟩ = .ok i ∧ decode ⟨0x02#8, a', fmt⟩ = .ok i'
        ∧ ∀ s : State,
          exec i s = .next { s with responses := s.responses ++ [{ status := 0#2, r := v }] }
          ∧ exec i' s = .next { s with responses := s.responses ++ [{ status := 0#2, r := v }] }

/-- Spec 41 R110: DEC is exact. Its word is finite with the pattern's sign and the pattern's value, or the
infinity of the pattern's sign. -/
def Obligations.DecIsExact : Prop :=
  ∀ (f : FmtArgs) (w : PatternWord) (s : State), f.Exact →
    (FinitePattern (descOf f) (w.toNat % 2 ^ (descOf f).T) →
      ∃ v : Word64,
        exec (.dec f w) s = .next { s with responses := s.responses ++ [{ status := 0#2, r := v }] }
        ∧ f64IsFinite v = true
        ∧ f64Sign v = patSign (descOf f) (w.toNat % 2 ^ (descOf f).T)
        ∧ f64Value v = patternValue (descOf f) (w.toNat % 2 ^ (descOf f).T))
    ∧ (classify (descOf f) (w.toNat % 2 ^ (descOf f).T) = .infinity →
      ∃ v : Word64,
        exec (.dec f w) s = .next { s with responses := s.responses ++ [{ status := 0#2, r := v }] }
        ∧ f64IsInf v = true
        ∧ f64Sign v = patSign (descOf f) (w.toNat % 2 ^ (descOf f).T))

/-- Spec 41 R111: DEC gives no binary64 subnormal, whatever the pattern. -/
def Obligations.DecGivesNoSubnormal : Prop :=
  ∀ (f : FmtArgs) (w : PatternWord) (s : State), f.Exact →
    ∃ (v : Word64) (n : Nat),
      exec (.dec f w) s = .next { s with
        responses := s.responses ++ [{ status := 0#2, r := v }], nanDraws := n }
      ∧ (f64Exp v = 0 →
          f64Frac v = 0 ∧ classify (descOf f) (w.toNat % 2 ^ (descOf f).T) = .zero)

/-- Spec 41 R102 and R104: the shift count is also the leading zero count of the left-justified
significand, plus one. -/
def Obligations.SubnormalShiftIsTheLeadingZeroCount : Prop :=
  ∀ (d : Desc) (mf : Nat), 1 ≤ d.M → d.M ≤ 23 → 0 < mf → mf < 2 ^ d.M →
    subnormalShift d mf = clz32 (BitVec.ofNat 32 (mf * 2 ^ (32 - d.M))) + 1
    ∧ 1 ≤ subnormalShift d mf ∧ subnormalShift d mf ≤ d.M

/-! ## ENC (spec 42) -/

/-- Spec 42 R138, R140 to R145: where the five commands with an explicit mode and ENC.DEF complete, and what
they answer. -/
def Obligations.EncAnswersWithThePattern : Prop :=
  ∀ (f : FmtArgs) (x : Word64) (s : State), f.Exact →
    exec (.encNe f x) s = .next { s with responses := s.responses ++ [{
        status := 0#2, r := BitVec.ofNat 64 (encodeF64 (descOf f) .nearestEven x) }] }
    ∧ exec (.encNa f x) s = .next { s with responses := s.responses ++ [{
        status := 0#2, r := BitVec.ofNat 64 (encodeF64 (descOf f) .nearestAway x) }] }
    ∧ exec (.encTr f x) s = .next { s with responses := s.responses ++ [{
        status := 0#2, r := BitVec.ofNat 64 (encodeF64 (descOf f) .truncate x) }] }
    ∧ exec (.encCe f x) s = .next { s with responses := s.responses ++ [{
        status := 0#2, r := BitVec.ofNat 64 (encodeF64 (descOf f) .ceiling x) }] }
    ∧ exec (.encFl f x) s = .next { s with responses := s.responses ++ [{
        status := 0#2, r := BitVec.ofNat 64 (encodeF64 (descOf f) .floor x) }] }
    ∧ exec (.encDef f x) s = .next { s with responses := s.responses ++ [{
        status := 0#2, r := BitVec.ofNat 64 (encodeF64 (descOf f) (defaultModeOf f.rmDefault) x) }] }

/-- Spec 42 R145 and 30 R57: ENC.DEF acts in every respect as the command of the descriptor's default
mode, which is NearestEven where none is given. -/
def Obligations.EncDefActsAsItsDefaultMode : Prop :=
  ∀ (f : FmtArgs) (x : Word64) (s : State),
    (f.rmDefault = 0 → exec (.encDef f x) s = exec (.encNe f x) s)
    ∧ (f.rmDefault = 1 → exec (.encDef f x) s = exec (.encNa f x) s)
    ∧ (f.rmDefault = 2 → exec (.encDef f x) s = exec (.encTr f x) s)
    ∧ (f.rmDefault = 3 → exec (.encDef f x) s = exec (.encCe f x) s)
    ∧ (f.rmDefault = 4 → exec (.encDef f x) s = exec (.encFl f x) s)
    ∧ (f.rmDefault = 7 → exec (.encDef f x) s = exec (.encNe f x) s)

/-- Spec 42 R123 and R148: every binary64 NaN, of either sign and with any payload, encodes to the all-ones
pattern, under all six commands. -/
def Obligations.EncOfNanIsAllOnes : Prop :=
  ∀ (f : FmtArgs) (sg : Bool) (payload : Fraction) (i : Instr) (s : State),
    f.Exact → payload ≠ 0#52 → i ∈ encCommands f (f64 sg 2047 payload) →
      exec i s = .next { s with responses := s.responses ++ [{
        status := 0#2
        r := BitVec.ofNat 64 (2 ^ (f.signBits + f.exponentBits + f.significandBits) - 1) }] }

/-- Spec 42 R146: +0.0 encodes to 0; −0.0 encodes to `2^(E+M)` in a signed format and to 0 in an unsigned
one, in every mode. -/
def Obligations.EncOfZeros : Prop :=
  ∀ (f : FmtArgs) (s : State), f.Exact →
    (∀ i ∈ encCommands f 0x0000000000000000#64,
      exec i s = .next { s with responses := s.responses ++ [{ status := 0#2, r := 0#64 }] })
    ∧ ∀ i ∈ encCommands f 0x8000000000000000#64,
      exec i s = .next { s with responses := s.responses ++ [{
        status := 0#2
        r := BitVec.ofNat 64
          (if f.signBits = 1 then 2 ^ (f.exponentBits + f.significandBits) else 0) }] }

/-- Spec 42 R147: the infinities. -/
def Obligations.EncOfInfinities : Prop :=
  ∀ (f : FmtArgs), f.Exact →
    (∀ rm, encodeF64 (descOf f) rm 0x7FF0000000000000#64
        = (2 ^ f.exponentBits - 1) * 2 ^ f.significandBits)
    ∧ (f.signBits = 1 → ∀ rm, encodeF64 (descOf f) rm 0xFFF0000000000000#64
        = 2 ^ (f.exponentBits + f.significandBits) + (2 ^ f.exponentBits - 1) * 2 ^ f.significandBits)
    ∧ (f.signBits = 0 →
        (∀ rm, rm = .truncate ∨ rm = .ceiling →
          encodeF64 (descOf f) rm 0xFFF0000000000000#64 = 0)
        ∧ ∀ rm, rm = .nearestEven ∨ rm = .nearestAway ∨ rm = .floor →
          encodeF64 (descOf f) rm 0xFFF0000000000000#64
            = 2 ^ (f.signBits + f.exponentBits + f.significandBits) - 1)

/-- Spec 42 R136 and R137: the result is below `2^T`, so bits `T` to 63 of `r` are 0. -/
def Obligations.EncResultFitsThePattern : Prop :=
  ∀ (f : FmtArgs) (x : Word64) (i : Instr) (s t : State), f.Exact → i ∈ encCommands f x →
    exec i s = .next t →
      ∃ r : Word64, t = { s with responses := s.responses ++ [{ status := 0#2, r := r }] }
        ∧ r.toNat < 2 ^ (f.signBits + f.exponentBits + f.significandBits)

/-- Spec 42 R125: the ranges of the encoder's internal values. -/
def Obligations.EncoderRanges : Prop :=
  ∀ (d : Desc) (rm : RoundingMode) (x : Word64), d.InXR →
    (d.B ≤ 1021 ∧ -1023 ≤ d.delta ∧ d.delta ≤ -2)
    ∧ (-1023 ≤ rebias d (f64Exp x) ∧ rebias d (f64Exp x) ≤ 2045)
    ∧ (align d (f64Exp x) (f64Frac x)).1 < 2 ^ 52
    ∧ (align d (f64Exp x) (f64Frac x)).2 ≤ 2045
    ∧ (roundingUnit d rm (align d (f64Exp x) (f64Frac x)).1 (f64Sign x) (f64Exp x)
        (align d (f64Exp x) (f64Frac x)).2).eCarried ≤ 2046
    ∧ (roundingUnit d rm (align d (f64Exp x) (f64Frac x)).1 (f64Sign x) (f64Exp x)
        (align d (f64Exp x) (f64Frac x)).2).e ≤ d.maxE

/-- Spec 42 R127: the sticky bit counts as a lower bit and as a dropped bit, and never changes the round
bit or the retained part. -/
def Obligations.StickyBitIsALowerBitOnly : Prop :=
  ∀ (d : Desc) (w k : Nat), 1 ≤ d.M → d.M ≤ 23 →
    28 ≤ d.sh - 1
    ∧ retained (shiftSticky w k) d.sh = retained (w / 2 ^ k) d.sh
    ∧ roundBit (shiftSticky w k) d.sh = roundBit (w / 2 ^ k) d.sh
    ∧ (w % 2 ^ k ≠ 0 → (shiftSticky w k).testBit 0 = true
        ∧ lowerBits (shiftSticky w k) d.sh = true ∧ anyDropped (shiftSticky w k) d.sh = true)

/-- Spec 41 R112: ENC of DEC is the pattern, for every pattern that is no NaN and every mode. -/
def Obligations.EncOfDecIsThePattern : Prop :=
  ∀ (f : FmtArgs) (w : PatternWord), f.Exact →
    classify (descOf f) (w.toNat % 2 ^ (descOf f).T) ≠ .nan →
      ∃ v : Word64,
        (∀ s : State, exec (.dec f w) s
          = .next { s with responses := s.responses ++ [{ status := 0#2, r := v }] })
        ∧ ∀ i ∈ encCommands f v, ∀ s : State, exec i s
          = .next { s with responses := s.responses ++ [{
              status := 0#2, r := BitVec.ofNat 64 (w.toNat % 2 ^ (descOf f).T) }] }

/-- Spec 42 R139, second point: an input that the format represents exactly encodes to its own pattern, in
every mode. -/
def Obligations.ExactInputsEncodeToTheirPattern : Prop :=
  ∀ (d : Desc) (p : Nat) (x : Word64) (rm : RoundingMode), d.InXR → p < 2 ^ d.T → FinitePattern d p →
    f64IsFinite x = true → f64Sign x = patSign d p → f64Value x = patternValue d p →
      encodeF64 d rm x = p

/-- Spec 43 R163: between two adjacent patterns `i-1` and `i` with finite values, each mode gives the one
its direction or its tie rule says. -/
def Obligations.RoundingWithinABucket : Prop :=
  ∀ (d : Desc) (i : Nat) (x : Word64), d.InXR → 1 ≤ i → i < d.maxE * 2 ^ d.M →
    f64IsFinite x = true → f64Sign x = false →
    patternValue d (i - 1) < f64Value x → f64Value x < patternValue d i →
      encodeF64 d .truncate x = i - 1
      ∧ encodeF64 d .floor x = i - 1
      ∧ encodeF64 d .ceiling x = i
      ∧ (2 * f64Value x < patternValue d (i - 1) + patternValue d i →
          encodeF64 d .nearestEven x = i - 1 ∧ encodeF64 d .nearestAway x = i - 1)
      ∧ (patternValue d (i - 1) + patternValue d i < 2 * f64Value x →
          encodeF64 d .nearestEven x = i ∧ encodeF64 d .nearestAway x = i)
      ∧ (2 * f64Value x = patternValue d (i - 1) + patternValue d i →
          encodeF64 d .nearestAway x = i
          ∧ encodeF64 d .nearestEven x = (if i % 2 = 0 then i else i - 1))

/-- Spec 43 R158: a finite input whose magnitude is above the largest finite one. `up` is the mode that
rounds this sign's magnitudes up, its mirror the one that rounds them down. -/
def Obligations.OverflowOutcomes : Prop :=
  ∀ (d : Desc) (x : Word64) (up : RoundingMode), d.InXR → (d.S = 1 ∨ f64Sign x = false) →
    up = (if f64Sign x then .floor else .ceiling) →
    f64IsFinite x = true → patternValue d d.maxFinite < |f64Value x| →
      encodeF64 d .truncate x = (if f64Sign x then d.signBit else 0) + d.maxFinite
      ∧ encodeF64 d (mirror up) x = (if f64Sign x then d.signBit else 0) + d.maxFinite
      ∧ encodeF64 d up x = (if f64Sign x then d.signBit else 0) + d.posInf
      ∧ (overflowThreshold d ≤ |f64Value x| →
          encodeF64 d .nearestEven x = (if f64Sign x then d.signBit else 0) + d.posInf
          ∧ encodeF64 d .nearestAway x = (if f64Sign x then d.signBit else 0) + d.posInf)
      ∧ (|f64Value x| < overflowThreshold d →
          encodeF64 d .nearestEven x = (if f64Sign x then d.signBit else 0) + d.maxFinite
          ∧ encodeF64 d .nearestAway x = (if f64Sign x then d.signBit else 0) + d.maxFinite)

/-- Spec 43 R162: in a signed format, a change of the input's sign under the mirrored mode changes the
result's sign bit and nothing else. -/
def Obligations.SignMirror : Prop :=
  ∀ (d : Desc) (x : Word64) (rm : RoundingMode), d.InXR → d.S = 1 → f64IsNaN x = false →
    encodeF64 d rm (x ^^^ 0x8000000000000000#64) = encodeF64 d (mirror rm) x ^^^ 2 ^ (d.E + d.M)

/-- Spec 43 R160 and R161: a negative input to an unsigned format gives 0 under Truncate and Ceiling; else
0 where the rounded magnitude is zero (as the same format with a sign bit shows it) and NaN elsewhere. -/
def Obligations.UnsignedNegativeInputs : Prop :=
  ∀ (d : Desc) (x : Word64), d.InXR → d.S = 0 → f64IsNaN x = false → f64Sign x = true →
    encodeF64 d .truncate x = 0
    ∧ encodeF64 d .ceiling x = 0
    ∧ ∀ rm, rm = .nearestEven ∨ rm = .nearestAway ∨ rm = .floor →
      encodeF64 d rm x
        = (if encodeF64 { d with S := 1 } rm x = 2 ^ (d.E + d.M) then 0 else 2 ^ d.T - 1)

/-! ## The rounding unit (spec 43) -/

/-- The values are those of spec 43 R150. That the strategy runs by itself and presents its
outputs in `unitOut`, with nothing else changed, is the model's choice (notes/assumptions/7.md and 16.md). -/
def Obligations.RuTruncate : Prop :=
  ∀ (u : UnitArgs) (s : State), u.fmt.Exact → u.e ≤ 2045 →
    ∃ o : UnitOutput, exec (.ruTr u) s = .next { s with unitOut := some o }
      ∧ o.inc = 0
      ∧ o.rCarried = u.mant.toNat / 2 ^ (52 - u.fmt.significandBits)
      ∧ o.eCarried = u.e
      ∧ (u.mant = 0xF800000000000#52 → u.fmt.significandBits = 3 → o.rCarried = 7)

/-- The values are those of spec 43 R151. That the strategy runs by itself and presents its
outputs in `unitOut`, with nothing else changed, is the model's choice (notes/assumptions/7.md and 16.md). -/
def Obligations.RuCeiling : Prop :=
  ∀ (u : UnitArgs) (s : State), u.fmt.Exact → u.e ≤ 2045 →
    ∃ o : UnitOutput, exec (.ruCe u) s = .next { s with unitOut := some o }
      ∧ o.inc = (if u.mant.toNat % 2 ^ (52 - u.fmt.significandBits) ≠ 0 ∧ u.s0 = false then 1 else 0)
      ∧ (u.s0 = true → o.rCarried = u.mant.toNat / 2 ^ (52 - u.fmt.significandBits))
      ∧ (u.mant.getLsbD 0 = true → u.s0 = false → o.inc = 1)
      ∧ (u.mant = 0xC000000000001#52 → u.fmt.significandBits = 3 → u.s0 = false →
          o.inc = 1 ∧ o.rCarried = 7)

/-- The values are those of spec 43 R152. That the strategy runs by itself and presents its
outputs in `unitOut`, with nothing else changed, is the model's choice (notes/assumptions/7.md and 16.md). -/
def Obligations.RuFloor : Prop :=
  ∀ (u : UnitArgs) (s : State), u.fmt.Exact → u.e ≤ 2045 →
    ∃ o : UnitOutput, exec (.ruFl u) s = .next { s with unitOut := some o }
      ∧ o.inc = (if u.mant.toNat % 2 ^ (52 - u.fmt.significandBits) ≠ 0 ∧ u.s0 = true then 1 else 0)
      ∧ (u.s0 = false → o.rCarried = u.mant.toNat / 2 ^ (52 - u.fmt.significandBits))
      ∧ (u.mant = 0xC000000000001#52 → u.fmt.significandBits = 3 →
          o.inc = (if u.s0 then 1 else 0))

/-- The values are those of spec 43 R153: the increment is the round bit, that is, the dropped value is half an
ULP or more. That the strategy runs by itself and presents its outputs in `unitOut`, with nothing else
changed, is the model's choice (notes/assumptions/7.md and 16.md). -/
def Obligations.RuNearestAway : Prop :=
  ∀ (u : UnitArgs) (s : State), u.fmt.Exact → u.e ≤ 2045 →
    ∃ o : UnitOutput, exec (.ruNa u) s = .next { s with unitOut := some o }
      ∧ o.inc = (if u.mant.getLsbD (51 - u.fmt.significandBits) then 1 else 0)
      ∧ (o.inc = 1 ↔ 2 ^ (51 - u.fmt.significandBits)
          ≤ u.mant.toNat % 2 ^ (52 - u.fmt.significandBits))
      ∧ (u.mant = 0x1000000000000#52 → u.fmt.significandBits = 3 → o.inc = 1)

/-- The values are those of spec 43 R154: ties go to the even one of `q` and `q + 1`. That
the strategy runs by itself and presents its outputs in `unitOut`, with nothing else changed, is the model's
choice (notes/assumptions/7.md and 16.md). -/
def Obligations.RuNearestEven : Prop :=
  ∀ (u : UnitArgs) (s : State), u.fmt.Exact → u.e ≤ 2045 →
    ∃ o : UnitOutput, exec (.ruNe u) s = .next { s with unitOut := some o }
      ∧ o.inc = (if u.mant.getLsbD (51 - u.fmt.significandBits) = true
            ∧ (u.mant.toNat % 2 ^ (51 - u.fmt.significandBits) ≠ 0
                ∨ u.mant.getLsbD (52 - u.fmt.significandBits) = true) then 1 else 0)
      ∧ (u.mant.toNat % 2 ^ (52 - u.fmt.significandBits) = 2 ^ (51 - u.fmt.significandBits) →
          (u.mant.toNat / 2 ^ (52 - u.fmt.significandBits) + o.inc) % 2 = 0)
      ∧ (u.mant = 0x1000000000000#52 → u.fmt.significandBits = 3 → o.inc = 0)
      ∧ (u.mant = 0x3000000000000#52 → u.fmt.significandBits = 3 → o.inc = 1)

/-- The rounded mantissa and its carry into the exponent are those of spec 43 R155 and R156. That the
strategy runs by itself, and the carried pair as fields of the record it presents, are the model's choice
(notes/assumptions/7.md and 16.md). -/
def Obligations.MantissaCarry : Prop :=
  ∀ (rm : RoundingMode) (u : UnitArgs) (s : State), u.fmt.Exact → u.e ≤ 2045 →
    ∃ o : UnitOutput, exec (ruWith rm u) s = .next { s with unitOut := some o }
      ∧ u.mant.toNat / 2 ^ (52 - u.fmt.significandBits) + o.inc ≤ 2 ^ u.fmt.significandBits
      ∧ (u.mant.toNat / 2 ^ (52 - u.fmt.significandBits) + o.inc = 2 ^ u.fmt.significandBits →
          rm ≠ .truncate ∧ o.eCarried = u.e + 1 ∧ o.rCarried = 0)
      ∧ (u.mant.toNat / 2 ^ (52 - u.fmt.significandBits) + o.inc ≠ 2 ^ u.fmt.significandBits →
          o.eCarried = u.e
          ∧ o.rCarried = u.mant.toNat / 2 ^ (52 - u.fmt.significandBits) + o.inc)

/-- The overflow policy is that of spec 43 R157. That the
strategy runs by itself, and the final pair as fields of the record it presents, are the model's choice
(notes/assumptions/7.md and 16.md). -/
def Obligations.OverflowPolicy : Prop :=
  ∀ (rm : RoundingMode) (u : UnitArgs) (s : State), u.fmt.Exact → u.e ≤ 2045 →
    ∃ o : UnitOutput, exec (ruWith rm u) s = .next { s with unitOut := some o }
      ∧ (o.eCarried < 2 ^ u.fmt.exponentBits - 1 → o.e = o.eCarried ∧ o.r = o.rCarried)
      ∧ (2 ^ u.fmt.exponentBits - 1 ≤ o.eCarried →
          (u.e0 ≠ 2047#11
            ∧ (rm = .truncate ∨ (rm = .ceiling ∧ u.s0 = true) ∨ (rm = .floor ∧ u.s0 = false)) →
              o.e = 2 ^ u.fmt.exponentBits - 2 ∧ o.r = 2 ^ u.fmt.significandBits - 1)
          ∧ (¬(u.e0 ≠ 2047#11
            ∧ (rm = .truncate ∨ (rm = .ceiling ∧ u.s0 = true) ∨ (rm = .floor ∧ u.s0 = false))) →
              o.e = 2 ^ u.fmt.exponentBits - 1 ∧ o.r = 0))

/-- The unsigned rule, for `S = 0` and `s0 = 1` only, is that of spec 43 R160. That the
strategy runs by itself, and the pattern of the rule as a field of the record it presents, are the model's
choice (notes/assumptions/7.md and 16.md). -/
def Obligations.UnsignedRule : Prop :=
  ∀ (rm : RoundingMode) (u : UnitArgs) (s : State), u.fmt.Exact → u.e ≤ 2045 →
    ∃ o : UnitOutput, exec (ruWith rm u) s = .next { s with unitOut := some o }
      ∧ (¬(u.fmt.signBits = 0 ∧ u.s0 = true) → o.saturated = none)
      ∧ (u.fmt.signBits = 0 ∧ u.s0 = true →
          (rm = .truncate ∨ rm = .ceiling → o.saturated = some 0)
          ∧ (rm ≠ .truncate → rm ≠ .ceiling → o.e = 0 → o.r = 0 → o.saturated = some 0)
          ∧ (rm ≠ .truncate → rm ≠ .ceiling → ¬(o.e = 0 ∧ o.r = 0) →
              o.saturated = some (2 ^ (u.fmt.exponentBits + u.fmt.significandBits) - 1)))

/-- Spec 42 R138: the encoder is its alignment (R126, R128), the rounding unit's answer, and the packing of
its fields without overlap (R134, R135). That the strategy also runs as an instruction by itself, whose
record `unitOut` holds with nothing else changed, is the model's choice (notes/assumptions/7.md and
16.md). -/
def Obligations.EncoderIsAlignRoundPack : Prop :=
  ∀ (rm : RoundingMode) (f : FmtArgs) (x : Word64) (u : UnitArgs) (s : State),
    f.Exact → f64IsNaN x = false →
    u.fmt = f → u.s0 = f64Sign x → u.e0.toNat = f64Exp x →
    ((f64Exp x : Int) + (effectiveBias f - 1023) ≤ 0 →
      u.e = 0
      ∧ ∃ k : Nat, (k : Int) = min (1 - ((f64Exp x : Int) + (effectiveBias f - 1023))) 53
        ∧ u.mant.toNat
          = (((if f64Exp x = 0 then 0 else 2 ^ 52) + f64Frac x) / 2 ^ k
            ||| (if ((if f64Exp x = 0 then 0 else 2 ^ 52) + f64Frac x) % 2 ^ k = 0 then 0 else 1))) →
    (0 < (f64Exp x : Int) + (effectiveBias f - 1023) →
      (u.e : Int) = (f64Exp x : Int) + (effectiveBias f - 1023) ∧ u.mant.toNat = f64Frac x) →
      ∃ o : UnitOutput, exec (ruWith rm u) s = .next { s with unitOut := some o }
        ∧ exec (encWith rm f x) s = .next { s with responses := s.responses ++ [{
            status := 0#2
            r := BitVec.ofNat 64 (o.saturated.getD
              ((if f.signBits = 1 ∧ f64Sign x = true then 2 ^ (f.exponentBits + f.significandBits) else 0)
                + o.e * 2 ^ f.significandBits + o.r)) }] }

/-- Spec 43 R149: with the round bit set, `low` and the exact tie can be read off the trailing zero
count. -/
def Obligations.TiesByTrailingZeroCount : Prop :=
  ∀ (d : Desc) (mant : Nat), 1 ≤ d.M → d.M ≤ 23 → mant < 2 ^ 52 → roundBit mant d.sh = true →
    mant ≠ 0
    ∧ (lowerBits mant d.sh = true ↔ ctz 52 mant < d.sh - 1)
    ∧ (dropped mant d.sh = 2 ^ (d.sh - 1) ↔ ctz 52 mant = d.sh - 1)

/-! ## The machine as a whole -/

/-- The frame of the eight commands: whatever they answer, one response is added after the earlier ones, and
everything else is unchanged, but for the count of draws where DEC meets a NaN (spec 10 R21, R29; 43
R164; 60 R185). The lists of requests and responses, the unit's ports and the count of draws are the model's
choice (notes/assumptions/2.md, 3.md, 7.md and 5.md). -/
def Obligations.CommandFrame : Prop :=
  ∀ (f : FmtArgs) (x : Word64) (p : PatternWord) (i : Instr) (s t : State),
    i ∈ allCommands f x p → exec i s = .next t →
      t.inFlight = s.inFlight ∧ t.unitIn = s.unitIn ∧ t.unitOut = s.unitOut
      ∧ (∃ rsp, t.responses = s.responses ++ [rsp])
      ∧ ((i = .dec f p ∧ f.Exact
            ∧ classify (descOf f) (p.toNat % 2 ^ (descOf f).T) = .nan → t.nanDraws = s.nanDraws + 1)
        ∧ (¬(i = .dec f p ∧ f.Exact
            ∧ classify (descOf f) (p.toNat % 2 ^ (descOf f).T) = .nan) → t.nanDraws = s.nanDraws))

/-- The frame of the five strategies: the unit's outputs are presented, and everything else is unchanged;
off the inputs of spec 43 R149 they stop by name. That a strategy runs by itself, what it presents and
where it stops are the model's choice (notes/assumptions/7.md, 16.md and 8.md). -/
def Obligations.StrategyFrame : Prop :=
  ∀ (u : UnitArgs) (i : Instr) (s : State), i ∈ allStrategies u →
    (∀ t, exec i s = .next t →
      t.inFlight = s.inFlight ∧ t.responses = s.responses ∧ t.unitIn = s.unitIn
      ∧ t.nanDraws = s.nanDraws ∧ t.unitOut.isSome = true)
    ∧ (exec i s = .refused .unitInputOutOfRange ↔ ¬(u.fmt.Exact ∧ u.e ≤ 2045))

/-- Every step keeps the invariant: the responses given are ones the block can give, and the unit's outputs
are in range (spec 10 R26; 60 R181, R182; 42 R125; 43 R155). That the responses and the unit's outputs are
held in the state is the model's choice (notes/assumptions/3.md, 7.md and 16.md). -/
def Obligations.StepKeepsTheInvariant : Prop :=
  ∀ s t : State, s.Inv → step s = .next t → t.Inv

/-- The state after reset meets the invariant; no request is in flight and no response is presented
(spec 70 R200, R202). That the rounding unit's ports are empty and no draw is counted is the model's choice
(notes/assumptions/5.md and 7.md). -/
def Obligations.ResetMeetsTheInvariant : Prop :=
  State.reset.Inv ∧ State.reset.inFlight = [] ∧ State.reset.responses = []
    ∧ State.reset.unitIn = none ∧ State.reset.unitOut = none ∧ State.reset.nanDraws = 0

/-- Spec 70 R200: a reset discards every request in flight, none of them receives a response, and no later
step answers them. That the responses given before are kept, and the idle step, are the model's choice
(notes/assumptions/12.md and 4.md). -/
def Obligations.ResetDiscardsRequestsInFlight : Prop :=
  ∀ s : State, s.applyReset.inFlight = [] ∧ s.applyReset.responses = s.responses
    ∧ ∀ n, Host.Core.run Sys2Proof.core n s.applyReset = .next s.applyReset

/-- Spec 60 R184 and 10 R31: the step answers a request as the one function of the request says, with the
priority IllegalCommand, InvalidFormat, refusal, result. -/
def Obligations.StepRefinesTheRequestFunction : Prop :=
  ∀ (s : State) (r : Request) (rest : List Request), s.unitIn = none → s.inFlight = r :: rest →
    ∃ nanFrac : Fraction, nanFrac ≠ 0#52
      ∧ (∀ ref, op r nanFrac = .error ref → step s = .refused ref)
      ∧ ∀ rsp, op r nanFrac = .ok rsp →
          ∃ n, step s = .next { s with
            inFlight := rest, responses := s.responses ++ [rsp], nanDraws := n }

/-- Spec 10 R31 and 20 R45: the response to a request depends on no other request and on nothing that the
block did before; only the draw may differ. The count of draws is the model's own
(notes/assumptions/5.md). -/
def Obligations.ResponseDependsOnItsRequestAlone : Prop :=
  ∀ (s₁ s₂ t₁ : State) (r : Request) (rest₁ rest₂ : List Request),
    s₁.unitIn = none → s₂.unitIn = none → s₁.nanDraws = s₂.nanDraws →
    s₁.inFlight = r :: rest₁ → s₂.inFlight = r :: rest₂ → step s₁ = .next t₁ →
      ∃ (rsp : Response) (t₂ : State), step s₂ = .next t₂
        ∧ t₁.responses = s₁.responses ++ [rsp] ∧ t₂.responses = s₂.responses ++ [rsp]

/-- Spec 70 R205: the same request gives the same response, whatever the block did before; the one exception
is the fraction of a NaN that DEC gives. -/
def Obligations.ReissuingIsSafe : Prop :=
  ∀ (s₁ s₂ t₁ : State) (r : Request) (rest₁ rest₂ : List Request),
    s₁.unitIn = none → s₂.unitIn = none →
    s₁.inFlight = r :: rest₁ → s₂.inFlight = r :: rest₂ → step s₁ = .next t₁ →
      ∃ (rsp₁ rsp₂ : Response) (t₂ : State), step s₂ = .next t₂
        ∧ t₁.responses = s₁.responses ++ [rsp₁] ∧ t₂.responses = s₂.responses ++ [rsp₂]
        ∧ rsp₁.status = rsp₂.status
        ∧ (rsp₁.r = rsp₂.r
          ∨ (r.cmd = 0x02#8 ∧ rsp₁.status = 0#2 ∧ f64IsNaN rsp₁.r = true ∧ f64IsNaN rsp₂.r = true
            ∧ f64Sign rsp₁.r = f64Sign rsp₂.r))

/-- Spec 60 R195: each request ends in a response with status 0, 1 or 2, or in the model's refusal, and
is refused only outside XR. -/
def Obligations.EveryRequestEndsInOneOutcome : Prop :=
  ∀ (s : State) (r : Request) (rest : List Request), s.unitIn = none → s.inFlight = r :: rest →
    (r.OutsideXR → step s = .refused .unsupportedRange)
    ∧ (¬r.OutsideXR → ∃ (t : State) (rsp : Response), step s = .next t
        ∧ t.responses = s.responses ++ [rsp]
        ∧ (rsp.status = 0#2 ∨ rsp.status = 1#2 ∨ rsp.status = 2#2))

/-- Spec 10 R31 and 20 R44: a sequence of requests is the sequence of their independent results, in order,
and every accepted request is answered. One step for each request, and a queue without a bound, are the
model's choice (notes/assumptions/1.md, 2.md and 11.md). -/
def Obligations.AcceptedRequestsAreAllAnsweredInOrder : Prop :=
  ∀ s : State, s.unitIn = none → (∀ r ∈ s.inFlight, ¬r.OutsideXR) →
    ∃ (t : State) (given : List Response),
      Host.Core.run Sys2Proof.core s.inFlight.length s = .next t
      ∧ t.inFlight = [] ∧ t.responses = s.responses ++ given
      ∧ List.Forall₂ (fun r rsp => ∃ nanFrac : Fraction, nanFrac ≠ 0#52 ∧ op r nanFrac = .ok rsp)
          s.inFlight given

/-- Spec 70 R201: after reset the block accepts a request at once and answers it as it answers any later
request with the same fields. -/
def Obligations.FirstRequestIsLikeAnyOther : Prop :=
  ∀ (r : Request) (s t : State), s.unitIn = none → s.inFlight = [] → step (s.submit r) = .next t →
    ∃ (rsp rsp' : Response) (t' : State), step (State.reset.submit r) = .next t'
      ∧ t.responses = s.responses ++ [rsp] ∧ t'.responses = [rsp']
      ∧ t.inFlight = [] ∧ t'.inFlight = []
      ∧ rsp.status = rsp'.status
      ∧ (rsp.r = rsp'.r
        ∨ (r.cmd = 0x02#8 ∧ rsp.status = 0#2 ∧ f64IsNaN rsp.r = true ∧ f64IsNaN rsp'.r = true
          ∧ f64Sign rsp.r = f64Sign rsp'.r))
end

