-- ==== Sys2Proof/Laws/State.lean ====
section
/-! SUPPORT. One lemma for each field under each update of the state. -/

namespace Sys2Proof.Machine

section respond
variable (rsp : Response) (s : State)

@[simp] theorem State.respond_inFlight : (s.respond rsp).inFlight = s.inFlight := rfl
@[simp] theorem State.respond_responses : (s.respond rsp).responses = s.responses ++ [rsp] := rfl
@[simp] theorem State.respond_unitIn : (s.respond rsp).unitIn = s.unitIn := rfl
@[simp] theorem State.respond_unitOut : (s.respond rsp).unitOut = s.unitOut := rfl
@[simp] theorem State.respond_nanDraws : (s.respond rsp).nanDraws = s.nanDraws := rfl

end respond

theorem State.respondOk_eq (r : Word64) (s : State) :
    s.respondOk r = s.respond { status := 0#2, r := r } := rfl

theorem State.raise_eq (err : BlockError) (s : State) :
    s.raise err = s.respond (errorResponse err) := rfl

section countDraw
variable (s : State)

@[simp] theorem State.countDraw_inFlight : s.countDraw.inFlight = s.inFlight := rfl
@[simp] theorem State.countDraw_responses : s.countDraw.responses = s.responses := rfl
@[simp] theorem State.countDraw_unitIn : s.countDraw.unitIn = s.unitIn := rfl
@[simp] theorem State.countDraw_unitOut : s.countDraw.unitOut = s.unitOut := rfl
@[simp] theorem State.countDraw_nanDraws : s.countDraw.nanDraws = s.nanDraws + 1 := rfl

end countDraw

section afterDecoding
variable (c : PatternClass) (s : State)

@[simp] theorem State.afterDecoding_inFlight : (s.afterDecoding c).inFlight = s.inFlight := by
  cases c <;> rfl
@[simp] theorem State.afterDecoding_responses : (s.afterDecoding c).responses = s.responses := by
  cases c <;> rfl
@[simp] theorem State.afterDecoding_unitIn : (s.afterDecoding c).unitIn = s.unitIn := by
  cases c <;> rfl
@[simp] theorem State.afterDecoding_unitOut : (s.afterDecoding c).unitOut = s.unitOut := by
  cases c <;> rfl
@[simp] theorem State.afterDecoding_nan : s.afterDecoding .nan = s.countDraw := rfl

theorem State.afterDecoding_of_ne_nan (h : c ≠ .nan) : s.afterDecoding c = s := by
  cases c <;> first | rfl | exact absurd rfl h

end afterDecoding

section presentUnit
variable (o : UnitOutput) (s : State)

@[simp] theorem State.presentUnit_inFlight : (s.presentUnit o).inFlight = s.inFlight := rfl
@[simp] theorem State.presentUnit_responses : (s.presentUnit o).responses = s.responses := rfl
@[simp] theorem State.presentUnit_unitIn : (s.presentUnit o).unitIn = s.unitIn := rfl
@[simp] theorem State.presentUnit_unitOut : (s.presentUnit o).unitOut = some o := rfl
@[simp] theorem State.presentUnit_nanDraws : (s.presentUnit o).nanDraws = s.nanDraws := rfl

end presentUnit

section submit
variable (r : Request) (s : State)

@[simp] theorem State.submit_inFlight : (s.submit r).inFlight = s.inFlight ++ [r] := rfl
@[simp] theorem State.submit_responses : (s.submit r).responses = s.responses := rfl
@[simp] theorem State.submit_unitIn : (s.submit r).unitIn = s.unitIn := rfl
@[simp] theorem State.submit_unitOut : (s.submit r).unitOut = s.unitOut := rfl
@[simp] theorem State.submit_nanDraws : (s.submit r).nanDraws = s.nanDraws := rfl

end submit

section place
variable (r : Request) (u : UnitPorts) (s : State)

@[simp] theorem State.place_command_inFlight : (s.place (.command r)).inFlight = r :: s.inFlight := rfl
@[simp] theorem State.place_command_unitIn : (s.place (.command r)).unitIn = none := rfl
@[simp] theorem State.place_rounding_unitIn : (s.place (.rounding u)).unitIn = some u := rfl
@[simp] theorem State.place_rounding_inFlight : (s.place (.rounding u)).inFlight = s.inFlight := rfl

end place

@[simp] theorem State.applyReset_inFlight (s : State) : s.applyReset.inFlight = [] := rfl
@[simp] theorem State.applyReset_responses (s : State) : s.applyReset.responses = s.responses := rfl
@[simp] theorem State.applyReset_unitIn (s : State) : s.applyReset.unitIn = none := rfl
@[simp] theorem State.applyReset_unitOut (s : State) : s.applyReset.unitOut = none := rfl
@[simp] theorem State.applyReset_nanDraws (s : State) : s.applyReset.nanDraws = s.nanDraws := rfl

end Sys2Proof.Machine
end

