-- ==== Sys2Proof/Laws/Ops.lean ====
section
/-! SUPPORT. Once for each shared operation: everything it can do. -/

namespace Sys2Proof.Machine

/-- A step takes up an activation of the rounding unit before any request. -/
theorem takeInput_of_unitIn {s : State} {u : UnitPorts} (h : s.unitIn = some u) :
    s.takeInput = some (.rounding u, { s with unitIn := none }) := by
  simp [State.takeInput, h]

/-- Else it takes up the oldest request in flight. -/
theorem takeInput_of_inFlight {s : State} {r : Request} {rest : List Request}
    (hu : s.unitIn = none) (h : s.inFlight = r :: rest) :
    s.takeInput = some (.command r, { s with inFlight := rest }) := by
  simp [State.takeInput, hu, h]

/-- Else there is nothing to take up. -/
theorem takeInput_of_idle {s : State} (hu : s.unitIn = none) (h : s.inFlight = []) :
    s.takeInput = none := by
  simp [State.takeInput, hu, h]

/-- Everything `takeInput` can answer. -/
theorem takeInput_cases (s : State) :
    (s.takeInput = none ∧ s.unitIn = none ∧ s.inFlight = [])
      ∨ (∃ r rest, s.takeInput = some (.command r, { s with inFlight := rest })
          ∧ s.unitIn = none ∧ s.inFlight = r :: rest)
      ∨ (∃ u, s.takeInput = some (.rounding u, { s with unitIn := none }) ∧ s.unitIn = some u) := by
  obtain hu | ⟨u, hu⟩ : s.unitIn = none ∨ ∃ u, s.unitIn = some u := by cases s.unitIn <;> simp
  · obtain hq | ⟨r, rest, hq⟩ : s.inFlight = [] ∨ ∃ r rest, s.inFlight = r :: rest := by
      cases s.inFlight <;> simp
    · exact .inl ⟨takeInput_of_idle hu hq, hu, hq⟩
    · exact .inr (.inl ⟨r, rest, takeInput_of_inFlight hu hq, hu, hq⟩)
  · exact .inr (.inr ⟨u, takeInput_of_unitIn hu, hu⟩)

/-- The fraction a draw gives is not zero (spec 41 R106). -/
theorem drawnFraction_ne_zero (n : Nat) (f : FmtArgs) (p : PatternWord) :
    drawnFraction n f p ≠ 0#52 := by
  intro h
  have hlt := (Config.nanFracDraw n f p).isLt
  have := congrArg BitVec.toNat h
  simp only [drawnFraction, BitVec.toNat_ofNat, Nat.zero_mod] at this
  omega

/-- Everything `withDescriptor` can do. -/
theorem withDescriptor_cases (f : FmtArgs) (s : State) (k : Desc → Outcome) :
    (∃ err, validate f = .error err ∧ withDescriptor f s k = .next (s.raise err))
      ∨ (∃ d, validate f = .ok d ∧ withDescriptor f s k = k d) := by
  cases h : validate f with
  | error err => exact .inl ⟨err, rfl, by simp [withDescriptor, h]⟩
  | ok d => exact .inr ⟨d, rfl, by simp [withDescriptor, h]⟩

theorem withDescriptor_ok {f : FmtArgs} {d : Desc} (h : validate f = .ok d) (s : State)
    (k : Desc → Outcome) : withDescriptor f s k = k d := by
  simp [withDescriptor, h]

theorem withDescriptor_error {f : FmtArgs} {err : BlockError} (h : validate f = .error err)
    (s : State) (k : Desc → Outcome) : withDescriptor f s k = .next (s.raise err) := by
  simp [withDescriptor, h]

/-- Everything `withExactRange` can do. -/
theorem withExactRange_cases (f : FmtArgs) (s : State) (k : Desc → Outcome) :
    (∃ err, validate f = .error err ∧ withExactRange f s k = .next (s.raise err))
      ∨ (∃ d, validate f = .ok d ∧ d.xr = false ∧ withExactRange f s k = .refused .unsupportedRange)
      ∨ (∃ d, validate f = .ok d ∧ d.xr = true ∧ withExactRange f s k = k d) := by
  cases h : validate f with
  | error err => exact .inl ⟨err, rfl, by simp [withExactRange, withDescriptor, h]⟩
  | ok d =>
    cases hx : d.xr with
    | false => exact .inr (.inl ⟨d, rfl, hx, by simp [withExactRange, withDescriptor, h, hx]⟩)
    | true => exact .inr (.inr ⟨d, rfl, hx, by simp [withExactRange, withDescriptor, h, hx]⟩)

theorem withExactRange_ok {f : FmtArgs} {d : Desc} (h : validate f = .ok d) (hx : d.xr = true)
    (s : State) (k : Desc → Outcome) : withExactRange f s k = k d := by
  simp [withExactRange, withDescriptor, h, hx]

/-- Everything `runUnit` can do. -/
theorem runUnit_cases (rm : RoundingMode) (u : UnitArgs) (s : State) :
    runUnit rm u s = .refused .unitInputOutOfRange
      ∨ (∃ d, validate u.fmt = .ok d ∧ d.xr = true ∧ u.e ≤ 2045
          ∧ runUnit rm u s
              = .next (s.presentUnit (roundingUnit d rm u.mant.toNat u.s0 u.e0.toNat u.e))) := by
  cases h : validate u.fmt with
  | error err => exact .inl (by simp [runUnit, h])
  | ok d =>
    by_cases hx : d.xr = true ∧ u.e ≤ 2045
    · exact .inr ⟨d, rfl, hx.1, hx.2, by simp [runUnit, h, hx]⟩
    · exact .inl (by simp only [runUnit, h]; rw [if_neg hx])

end Sys2Proof.Machine
end

