-- ==== Sys2Proof/Laws/Format.lean ====
section
/-! SUPPORT. What a descriptor that passes the check is. -/

namespace Sys2Proof.Machine

/-- The code of a legal default mode (spec 40 R86, R87). -/
theorem defaultMode_eq_some {code : Nat} {m : RoundingMode} (h : defaultMode code = some m) :
    (code ≤ 4 ∨ code = 7) ∧ m = defaultModeOf code := by
  unfold defaultMode at h
  split at h <;> simp_all [defaultModeOf]

theorem defaultMode_of_legal {code : Nat} (h : code ≤ 4 ∨ code = 7) :
    defaultMode code = some (defaultModeOf code) := by
  rcases h with h | rfl
  · interval_cases code <;> rfl
  · rfl

/-- The check lets a legal descriptor pass, with the values the spec gives it. -/
theorem validate_of_legal {f : FmtArgs} (h : f.Legal) : validate f = .ok (descOf f) := by
  obtain ⟨hS, hE, hM, hB, hR⟩ := h
  have hb : biasInRange f = true := by
    simp only [biasInRange, Bool.and_eq_true, decide_eq_true_eq]
    exact hB
  unfold validate
  rw [if_neg (by tauto), if_neg (by omega), if_neg (by omega), if_neg (by simp [hb]),
    defaultMode_of_legal hR]
  rfl

/-- The XR bit of a descriptor's values (spec 40 R89). -/
theorem xr_descOf (f : FmtArgs) :
    (descOf f).xr = true ↔ effectiveBias f + f.significandBits ≤ 1022 := by
  simp only [Desc.xr, descOf]
  exact decide_eq_true_iff

/-- ENC and DEC go on with a legal descriptor in XR. -/
theorem withExactRange_of_exact {f : FmtArgs} (h : f.Exact) (s : State) (k : Desc → Outcome) :
    withExactRange f s k = k (descOf f) :=
  withExactRange_ok (validate_of_legal h.1) ((xr_descOf f).2 h.2) s k

/-- A descriptor that passes the check keeps its widths and has the effective bias and mode; its widths and
its bias are in range. -/
theorem validate_ok_cases {f : FmtArgs} {d : Desc} (h : validate f = .ok d) :
    d = descOf f ∧ d.S ≤ 1 ∧ (1 ≤ d.E ∧ d.E ≤ 8) ∧ (1 ≤ d.M ∧ d.M ≤ 23) ∧ 0 ≤ d.B := by
  unfold validate at h
  split at h
  · cases h
  split at h
  · cases h
  split at h
  · cases h
  split at h
  · cases h
  rename_i h1 h2 h3 h4
  split at h
  · cases h
  rename_i m hm
  cases h
  refine ⟨?_, ?_, ?_, ?_, ?_⟩
  · simp [descOf, (defaultMode_eq_some hm).2]
  · show f.signBits ≤ 1
    omega
  · show 1 ≤ f.exponentBits ∧ f.exponentBits ≤ 8
    omega
  · show 1 ≤ f.significandBits ∧ f.significandBits ≤ 23
    omega
  · simp only [not_not, biasInRange, Bool.and_eq_true, decide_eq_true_eq] at h4
    show 0 ≤ effectiveBias f
    omega

/-- A validated descriptor whose XR bit is set is in XR. -/
theorem inXR_of_validate {f : FmtArgs} {d : Desc} (h : validate f = .ok d) (hx : d.xr = true) :
    d.InXR := by
  obtain ⟨-, hS, hE, hM, hB⟩ := validate_ok_cases h
  exact ⟨hS, hE, hM, hB, by simpa [Desc.xr] using hx⟩

end Sys2Proof.Machine
end

