-- ==== Sys2Proof/Laws/PerInstr.lean ====
section
/-! SUPPORT. Per instruction: the encoder's word is the opcode table's (family `RowWord`). -/

namespace Sys2Proof.Laws.RowWord

/-- The selecting word of port contents: the command word of a request, the mode select of an activation. -/
def selector : Input → Nat
  | .command r  => r.cmd.toNat
  | .rounding u => u.sel.toNat

/-- The "match" column of spec/opcode_table.json, by mnemonic. -/
def rows : List (String × Nat) :=
  [("CHKFMT", 0x00), ("ENC.NE", 0x01), ("ENC.NA", 0x05), ("ENC.TR", 0x09), ("ENC.CE", 0x0D),
   ("ENC.FL", 0x11), ("ENC.DEF", 0x1D), ("DEC", 0x02), ("RU.NE", 0x0), ("RU.NA", 0x1), ("RU.TR", 0x2),
   ("RU.CE", 0x3), ("RU.FL", 0x4)]

/-- The encoding of an instruction selects by the word of its row. -/
def Statement (i : Instr) : Prop := (i.mnemonic, selector (encode i)) ∈ rows

theorem chkfmt (f : FmtArgs) : Statement (.chkfmt f) := by simp [Statement, rows, Instr.mnemonic, selector, encode, assemble]
theorem encNe (f : FmtArgs) (x : Word64) : Statement (.encNe f x) := by simp [Statement, rows, Instr.mnemonic, selector, encode, assemble]
theorem encNa (f : FmtArgs) (x : Word64) : Statement (.encNa f x) := by simp [Statement, rows, Instr.mnemonic, selector, encode, assemble]
theorem encTr (f : FmtArgs) (x : Word64) : Statement (.encTr f x) := by simp [Statement, rows, Instr.mnemonic, selector, encode, assemble]
theorem encCe (f : FmtArgs) (x : Word64) : Statement (.encCe f x) := by simp [Statement, rows, Instr.mnemonic, selector, encode, assemble]
theorem encFl (f : FmtArgs) (x : Word64) : Statement (.encFl f x) := by simp [Statement, rows, Instr.mnemonic, selector, encode, assemble]
theorem encDef (f : FmtArgs) (x : Word64) : Statement (.encDef f x) := by simp [Statement, rows, Instr.mnemonic, selector, encode, assemble]
theorem dec (f : FmtArgs) (p : PatternWord) : Statement (.dec f p) := by simp [Statement, rows, Instr.mnemonic, selector, encode, assemble]
theorem ruNe (u : UnitArgs) : Statement (.ruNe u) := by simp [Statement, rows, Instr.mnemonic, selector, encode, UnitArgs.toPorts]
theorem ruNa (u : UnitArgs) : Statement (.ruNa u) := by simp [Statement, rows, Instr.mnemonic, selector, encode, UnitArgs.toPorts]
theorem ruTr (u : UnitArgs) : Statement (.ruTr u) := by simp [Statement, rows, Instr.mnemonic, selector, encode, UnitArgs.toPorts]
theorem ruCe (u : UnitArgs) : Statement (.ruCe u) := by simp [Statement, rows, Instr.mnemonic, selector, encode, UnitArgs.toPorts]
theorem ruFl (u : UnitArgs) : Statement (.ruFl u) := by simp [Statement, rows, Instr.mnemonic, selector, encode, UnitArgs.toPorts]

end Sys2Proof.Laws.RowWord
end

