-- ==== Sys2Proof/Laws/Rounding.lean ====
section
/-! SUPPORT. The small facts of the rounding unit's parts. -/

namespace Sys2Proof.Machine

/-- Every strategy gives an increment of 0 or 1 (spec 43 R149). -/
theorem increment_le_one (rm : RoundingMode) (mant sh : Nat) (s0 : Bool) :
    increment rm mant sh s0 ≤ 1 := by
  cases rm <;>
    simp only [increment, incTruncate, incCeiling, incFloor, incNearestAway, incNearestEven] <;>
    (try split) <;> omega

/-- Truncate never increments. -/
@[simp] theorem increment_truncate (mant sh : Nat) (s0 : Bool) :
    increment .truncate mant sh s0 = 0 := rfl

/-- The two things the carry can do (spec 43 R156). -/
theorem carry_cases (d : Desc) (e r : Nat) :
    (r = 2 ^ d.M ∧ carry d e r = (e + 1, 0)) ∨ (r ≠ 2 ^ d.M ∧ carry d e r = (e, r)) := by
  by_cases h : r = 2 ^ d.M
  · exact .inl ⟨h, by simp [carry, h]⟩
  · exact .inr ⟨h, by simp [carry, h]⟩

/-- The three things the overflow policy can do (spec 43 R157). -/
theorem overflow_cases (d : Desc) (rm : RoundingMode) (s0 : Bool) (e0 e r : Nat) :
    (e < d.maxE ∧ overflow d rm s0 e0 e r = (e, r))
      ∨ (d.maxE ≤ e ∧ e0 ≠ 2047 ∧ staysFinite rm s0 = true
          ∧ overflow d rm s0 e0 e r = (d.maxE - 1, 2 ^ d.M - 1))
      ∨ (d.maxE ≤ e ∧ (e0 = 2047 ∨ staysFinite rm s0 = false)
          ∧ overflow d rm s0 e0 e r = (d.maxE, 0)) := by
  by_cases h : d.maxE ≤ e
  · by_cases h2 : e0 ≠ 2047 ∧ staysFinite rm s0 = true
    · exact .inr (.inl ⟨h, h2.1, h2.2, by simp [overflow, h, h2, Config.nativeMaxExponent]⟩)
    · refine .inr (.inr ⟨h, ?_, ?_⟩)
      · cases hs : staysFinite rm s0 <;> simp_all
      · unfold overflow
        rw [if_pos h, if_neg (by simpa [Config.nativeMaxExponent] using h2)]
  · exact .inl ⟨by omega, by simp [overflow, h]⟩

/-- Where the unit runs by itself (spec 43 R149). -/
theorem runUnit_of_exact {u : UnitArgs} (h : u.fmt.Exact) (he : u.e ≤ 2045) (rm : RoundingMode)
    (s : State) :
    runUnit rm u s
      = .next (s.presentUnit (roundingUnit (descOf u.fmt) rm u.mant.toNat u.s0 u.e0.toNat u.e)) := by
  simp [runUnit, validate_of_legal h.1, (xr_descOf u.fmt).2 h.2, he]

/-- The dropped part and the retained part make up the mantissa (spec 43 R149). -/
theorem retained_mul_add_dropped (mant sh : Nat) :
    retained mant sh * 2 ^ sh + dropped mant sh = mant :=
  Nat.div_add_mod' mant (2 ^ sh)

theorem dropped_lt (mant sh : Nat) : dropped mant sh < 2 ^ sh :=
  Nat.mod_lt _ (Nat.two_pow_pos sh)

end Sys2Proof.Machine
end

