-- ==== Sys2Proof/Laws/Step.lean ====
section
/-! SUPPORT. Everything a meaning and a step can do, said once. -/

namespace Sys2Proof.Machine

/-- Everything an ENC command can do. -/
theorem encodeCommand_cases (f : FmtArgs) (x : Word64) (rm : Desc → RoundingMode) (s : State) :
    (∃ err, validate f = .error err ∧ encodeCommand f x rm s = .next (s.raise err))
      ∨ (∃ d, validate f = .ok d ∧ d.xr = false
          ∧ encodeCommand f x rm s = .refused .unsupportedRange)
      ∨ (∃ d, validate f = .ok d ∧ d.xr = true
          ∧ encodeCommand f x rm s
              = .next (s.respondOk (BitVec.ofNat 64 (encodeF64 d (rm d) x)))) :=
  withExactRange_cases f s _

/-- Everything DEC can do. -/
theorem execDec_cases (f : FmtArgs) (w : PatternWord) (s : State) :
    (∃ err, validate f = .error err ∧ execDec f w s = .next (s.raise err))
      ∨ (∃ d, validate f = .ok d ∧ d.xr = false ∧ execDec f w s = .refused .unsupportedRange)
      ∨ (∃ d, validate f = .ok d ∧ d.xr = true
          ∧ execDec f w s = .next ((s.afterDecoding (classify d (patternOf d w))).respondOk
              (decodePattern d (patternOf d w) (drawnFraction s.nanDraws f w)))) :=
  withExactRange_cases f s _

/-- A command that answers a next state gives exactly one response; the requests in flight and the
rounding unit's ports stay as they are. -/
theorem exec_command_next {f : FmtArgs} {x : Word64} {p : PatternWord} {i : Instr} {s t : State}
    (hi : i ∈ allCommands f x p) (h : exec i s = .next t) :
    ∃ rsp n, t = { (s.respond rsp) with nanDraws := n } := by
  have henc : ∀ rm : Desc → RoundingMode, encodeCommand f x rm s = .next t →
      ∃ rsp n, t = { (s.respond rsp) with nanDraws := n } := by
    intro rm h
    rcases encodeCommand_cases f x rm s with ⟨err, -, e⟩ | ⟨d, -, -, e⟩ | ⟨d, -, -, e⟩ <;>
      rw [e] at h <;> cases h
    · exact ⟨errorResponse err, s.nanDraws, rfl⟩
    · exact ⟨⟨0#2, _⟩, s.nanDraws, rfl⟩
  simp only [allCommands, encCommands, List.mem_cons, List.not_mem_nil, or_false] at hi
  rcases hi with rfl | rfl | rfl | rfl | rfl | rfl | rfl | rfl
  · rcases withDescriptor_cases f s fun d => .next (s.respondOk (summary d)) with
      ⟨err, -, e⟩ | ⟨d, -, e⟩ <;> (rw [exec, execChkfmt, e] at h; cases h)
    · exact ⟨errorResponse err, s.nanDraws, rfl⟩
    · exact ⟨⟨0#2, _⟩, s.nanDraws, rfl⟩
  · rcases execDec_cases f p s with ⟨err, -, e⟩ | ⟨d, -, -, e⟩ | ⟨d, -, -, e⟩ <;>
      rw [exec, e] at h <;> cases h
    · exact ⟨errorResponse err, s.nanDraws, rfl⟩
    · generalize decodePattern d (patternOf d p) (drawnFraction s.nanDraws f p) = v
      refine ⟨⟨0#2, v⟩, (s.afterDecoding (classify d (patternOf d p))).nanDraws, ?_⟩
      cases classify d (patternOf d p) <;> rfl
  all_goals exact henc _ h

/-- A strategy that answers a next state changes the unit's outputs and nothing else. -/
theorem exec_strategy_next {u : UnitArgs} {i : Instr} {s t : State}
    (hi : i ∈ allStrategies u) (h : exec i s = .next t) : ∃ o, t = { s with unitOut := some o } := by
  have hrun : ∀ rm, runUnit rm u s = .next t → ∃ o, t = { s with unitOut := some o } := by
    intro rm h
    rcases runUnit_cases rm u s with e | ⟨d, -, -, -, e⟩ <;> rw [e] at h <;> cases h
    exact ⟨_, rfl⟩
  simp only [allStrategies, List.mem_cons, List.not_mem_nil, or_false] at hi
  rcases hi with rfl | rfl | rfl | rfl | rfl <;> exact hrun _ h

/-- A step on a request in flight. -/
theorem step_of_request {s : State} {r : Request} {rest : List Request} (hu : s.unitIn = none)
    (hq : s.inFlight = r :: rest) :
    step s = match decode r with
      | .ok i    => exec i { s with inFlight := rest }
      | .error _ => .next (State.raise (.illegalCommand r.cmd) { s with inFlight := rest }) := by
  rw [step, takeInput_of_inFlight hu hq]
  show (match decode r with | .ok i => _ | .error _ => _) = _
  cases decode r <;> rfl

/-- A step on an activation of the rounding unit by itself. -/
theorem step_of_unit {s : State} {u : UnitPorts} (hu : s.unitIn = some u) :
    step s = match decodeUnit u with
      | .ok i    => exec i { s with unitIn := none }
      | .error _ => .refused .unitSelectUnassigned := by
  rw [step, takeInput_of_unitIn hu]
  show (match decodeUnit u with | .ok i => _ | .error _ => _) = _
  cases decodeUnit u <;> rfl

/-- A request's instruction is one of the eight commands. -/
theorem decode_mem_allCommands {r : Request} {i : Instr} (h : decode r = .ok i) :
    i ∈ allCommands r.fmt.read r.a (decOperand r.a) := by
  unfold decode at h
  split at h
  · cases h
  split at h
  · split at h <;> cases h; simp [allCommands]
  · split at h <;> cases h <;> simp [allCommands, encCommands]
  · split at h <;> cases h; simp [allCommands]
  · cases h

/-- An activation's instruction is one of the five strategies. -/
theorem decodeUnit_mem_allStrategies {u : UnitPorts} {i : Instr} (h : decodeUnit u = .ok i) :
    i ∈ allStrategies u.read := by
  unfold decodeUnit at h
  split at h <;> cases h <;> simp [allStrategies]

/-- Everything a step that answers a next state can do. -/
theorem step_next_cases {s t : State} (h : step s = .next t) :
    (s.unitIn = none ∧ s.inFlight = [] ∧ t = s)
      ∨ (∃ r rest rsp n, s.unitIn = none ∧ s.inFlight = r :: rest
          ∧ t = { s with inFlight := rest, responses := s.responses ++ [rsp], nanDraws := n })
      ∨ (∃ u o, s.unitIn = some u ∧ t = { s with unitIn := none, unitOut := some o }) := by
  rcases takeInput_cases s with ⟨e, hu, hq⟩ | ⟨r, rest, -, hu, hq⟩ | ⟨u, -, hu⟩
  · rw [step, e] at h
    cases h
    exact .inl ⟨hu, hq, rfl⟩
  · rw [step_of_request hu hq] at h
    cases hd : decode r with
    | error err =>
      rw [hd] at h
      cases h
      exact .inr (.inl ⟨r, rest, errorResponse _, s.nanDraws, hu, hq, rfl⟩)
    | ok i =>
      rw [hd] at h
      obtain ⟨rsp, n, rfl⟩ := exec_command_next (decode_mem_allCommands hd) h
      exact .inr (.inl ⟨r, rest, rsp, n, hu, hq, rfl⟩)
  · rw [step_of_unit hu] at h
    cases hd : decodeUnit u with
    | error err => rw [hd] at h; cases h
    | ok i =>
      rw [hd] at h
      obtain ⟨o, rfl⟩ := exec_strategy_next (decodeUnit_mem_allStrategies hd) h
      exact .inr (.inr ⟨u, o, hu, rfl⟩)

end Sys2Proof.Machine
end

