-- ==== Sys2Proof/Tests/Slice0.lean ====
section
/-! SUPPORT. The model's own tests: words and vectors of spec/ (each names its source), the smoke test of
WellFormed, and for each obligation with hypotheses a concrete case that meets all of them. -/

namespace Sys2Proof.Tests

open Sys2Proof.Machine

/-! Formats of spec 30 R72 and of spec 95 sections 2 to 5. -/

/-- `(1,4,3)`, bias 7. -/
def f143 : FmtArgs := ⟨1, 4, 3, none, 7⟩

/-- `(0,1,1)`, bias 0. -/
def f011 : FmtArgs := ⟨0, 1, 1, none, 7⟩

/-- `(1,8,23)`, bias 127. -/
def f32 : FmtArgs := ⟨1, 8, 23, none, 7⟩

/-- `(1,4,3,1019)`, the edge of XR. -/
def fEdge : FmtArgs := ⟨1, 4, 3, some 1019, 7⟩

/-- `(1,4,3,1020)`, just outside XR. -/
def fOut : FmtArgs := ⟨1, 4, 3, some 1020, 7⟩

/-- `(1,9,3)`, an illegal exponent width. -/
def fBad : FmtArgs := ⟨1, 9, 3, none, 7⟩

/-- The values of `(1,4,3)`. -/
def d143 : Desc := ⟨1, 4, 3, 7, .nearestEven⟩

/-- The values of `(0,1,1)`. -/
def d011 : Desc := ⟨0, 1, 1, 0, .nearestEven⟩

/-- The ports of `(1,4,3)`, and of `(1,4,3)` with the default mode Ceiling. -/
def ports143 : FmtPorts := ⟨1#2, 4#4, 3#5, false, 0#12, 7#3⟩
def ports143ce : FmtPorts := ⟨1#2, 4#4, 3#5, false, 0#12, 3#3⟩

/-- The last response after an outcome. -/
def answerOf : Outcome → Option Response
  | .next t    => t.responses.getLast?
  | .fault _   => none
  | .refused _ => none

/-- What the rounding unit presents after an outcome. -/
def unitOf : Outcome → Option UnitOutput
  | .next t    => t.unitOut
  | .fault _   => none
  | .refused _ => none

/-- The refusal an outcome is. -/
def refusalOf : Outcome → Option Refusal
  | .next _    => none
  | .fault _   => none
  | .refused r => some r

/-- A block with one request in flight. -/
def asked (cmd : CmdWord) (a : Word64) (fmt : FmtPorts) : State := State.reset.submit ⟨cmd, a, fmt⟩

/-! WellFormed refuses an ill-formed term at each check (spec 10 R24; 42 R125). -/

theorem smoke_signBits : (Instr.chkfmt ⟨4, 4, 3, none, 7⟩).wf = false := by decide
theorem smoke_exponentBits : (Instr.encNe ⟨1, 16, 3, none, 7⟩ 0#64).wf = false := by decide
theorem smoke_significandBits : (Instr.dec ⟨1, 4, 32, none, 7⟩ 0#32).wf = false := by decide
theorem smoke_bias_low : (Instr.encDef ⟨1, 4, 3, some (-2049), 7⟩ 0#64).wf = false := by decide
theorem smoke_bias_high : (Instr.encFl ⟨1, 4, 3, some 2048, 7⟩ 0#64).wf = false := by decide
theorem smoke_rmDefault : (Instr.encCe ⟨1, 4, 3, none, 8⟩ 0#64).wf = false := by decide
theorem smoke_unit_e : (Instr.ruNe ⟨0#52, false, 4096, 0#11, f143⟩).wf = false := by decide
theorem smoke_unit_fmt : (Instr.ruFl ⟨0#52, false, 0, 0#11, ⟨4, 4, 3, none, 7⟩⟩).wf = false := by decide
theorem smoke_wf : (Instr.encTr ⟨3, 15, 31, some (-2048), 7⟩ 0#64).wf = true := by decide

/-! Decoding: the words of spec 30 R58 (the table's "cmd (binary)" column) and of R60, bit by bit. -/

theorem test_word_chkfmt : decode ⟨0b00000000#8, 5#64, ports143⟩ = .ok (.chkfmt f143) := by decide
theorem test_word_encNe : decode ⟨0b00000001#8, 5#64, ports143⟩ = .ok (.encNe f143 5#64) := by decide
theorem test_word_encNa : decode ⟨0b00000101#8, 5#64, ports143⟩ = .ok (.encNa f143 5#64) := by decide
theorem test_word_encTr : decode ⟨0b00001001#8, 5#64, ports143⟩ = .ok (.encTr f143 5#64) := by decide
theorem test_word_encCe : decode ⟨0b00001101#8, 5#64, ports143⟩ = .ok (.encCe f143 5#64) := by decide
theorem test_word_encFl : decode ⟨0b00010001#8, 5#64, ports143⟩ = .ok (.encFl f143 5#64) := by decide
theorem test_word_encDef : decode ⟨0b00011101#8, 5#64, ports143⟩ = .ok (.encDef f143 5#64) := by decide
theorem test_word_dec :
    decode ⟨0b00000010#8, 0xFFFFFFFF00000077#64, ports143⟩ = .ok (.dec f143 0x77#32) := by decide
theorem test_word_reserved : decode ⟨0b00100001#8, 0#64, ports143⟩ = .error .reservedBits := by decide
theorem test_word_op : decode ⟨0b00000011#8, 0#64, ports143⟩ = .error .illegalOp := by decide
theorem test_word_rm : decode ⟨0b00010101#8, 0#64, ports143⟩ = .error .illegalRounding := by decide
theorem test_word_rm_dec : decode ⟨0b00000110#8, 0#64, ports143⟩ = .error .roundingNotZero := by decide
theorem test_word_select (m : Fraction) :
    (decodeUnit ⟨0b000#3, m, true, 3#12, 9#11, ports143⟩ = .ok (.ruNe ⟨m, true, 3, 9#11, f143⟩)
      ∧ decodeUnit ⟨0b001#3, m, true, 3#12, 9#11, ports143⟩ = .ok (.ruNa ⟨m, true, 3, 9#11, f143⟩)
      ∧ decodeUnit ⟨0b010#3, m, true, 3#12, 9#11, ports143⟩ = .ok (.ruTr ⟨m, true, 3, 9#11, f143⟩)
      ∧ decodeUnit ⟨0b011#3, m, true, 3#12, 9#11, ports143⟩ = .ok (.ruCe ⟨m, true, 3, 9#11, f143⟩))
      ∧ decodeUnit ⟨0b100#3, m, true, 3#12, 9#11, ports143⟩ = .ok (.ruFl ⟨m, true, 3, 9#11, f143⟩)
      ∧ decodeUnit ⟨0b101#3, m, true, 3#12, 9#11, ports143⟩ = .error .unassignedSelect := by
  simp [decodeUnit, UnitPorts.read, FmtPorts.read, ports143, f143]

/-- Spec 30 R62: a bias field of all ones is −1. -/
theorem test_read_bias :
    FmtPorts.read ⟨1#2, 4#4, 3#5, true, 0xFFF#12, 7#3⟩ = ⟨1, 4, 3, some (-1), 7⟩ := by decide

/-- The opcode table's words, and that they run as the first instruction after reset. -/
theorem test_table_words :
    decodeTableWord 8 0x1D = some (.encDef ⟨0, 0, 0, none, 0⟩ 0#64)
      ∧ decodeTableWord 8 0x03 = none
      ∧ decodeTableWord 3 0x4 = some (.ruFl ⟨0#52, false, 0, 0#11, f011⟩) := by decide
theorem test_table_step_command :
    answerOf (step (State.reset.withFetchWord 8 0x02)) = some ⟨1#2, 0x0000000000000002#64⟩ := by decide
theorem test_table_step_unit :
    unitOf (step (State.reset.withFetchWord 3 0x2)) = some ⟨0, 0, 0, 0, 0, none⟩ := by decide

/-! Vectors. CHKFMT and errors: spec 95 sections 2 and 3. -/

theorem test_chkfmt_summary :
    answerOf (exec (.chkfmt f143) State.reset) = some ⟨0#2, 0x01000C0800070F08#64⟩ := by decide
theorem test_chkfmt_outside_xr :
    answerOf (exec (.chkfmt ⟨1, 4, 3, some 2047, 7⟩) State.reset)
      = some ⟨0#2, 0x0000040007FF0F08#64⟩ := by decide
theorem test_invalid_bias :
    answerOf (step (asked 0x00#8 0#64 ⟨1#2, 4#4, 3#5, true, 0x800#12, 5#3⟩))
      = some ⟨1#2, 0xFFFFFFFFFFF80004#64⟩ := by decide
theorem test_invalid_order :
    answerOf (step (asked 0x01#8 0#64 ⟨3#2, 0#4, 0#5, false, 0#12, 7#3⟩))
      = some ⟨1#2, 0x0000000000000301#64⟩ := by decide
theorem test_illegal_first :
    answerOf (step (asked 0x03#8 0#64 ⟨2#2, 9#4, 24#5, false, 0#12, 7#3⟩))
      = some ⟨2#2, 0x0000000000000003#64⟩ := by decide
theorem test_refused :
    refusalOf (step (asked 0x01#8 0x3FF0000000000000#64 ⟨1#2, 4#4, 3#5, true, 0x3FC#12, 7#3⟩))
      = some .unsupportedRange := by decide

/-! DEC: spec 95 section 4.1. -/

theorem test_dec_subnormal :
    answerOf (exec (.dec f143 0x05#32) State.reset) = some ⟨0#2, 0x3F84000000000000#64⟩ := by decide
theorem test_dec_negative_normal :
    answerOf (exec (.dec f143 0xFFFFFFF7#32) State.reset) = some ⟨0#2, 0xC06E000000000000#64⟩ := by decide

/-! ENC: spec 95 section 5. -/

theorem test_encNe_tie_to_infinity :
    answerOf (exec (.encNe f143 0x406F000000000000#64) State.reset) = some ⟨0#2, 0x78#64⟩ := by decide
theorem test_encNe_tie_down :
    answerOf (exec (.encNe f143 0x3FF1000000000000#64) State.reset) = some ⟨0#2, 0x38#64⟩ := by decide
theorem test_encNa_tie_away :
    answerOf (exec (.encNa f143 0xBF50000000000000#64) State.reset) = some ⟨0#2, 0x81#64⟩ := by decide
theorem test_encNa_unsigned :
    answerOf (exec (.encNa f011 0xBFE0000000000000#64) State.reset) = some ⟨0#2, 0x3#64⟩ := by decide
theorem test_encTr_past_range :
    answerOf (exec (.encTr f143 0xFE37E43C8800759C#64) State.reset) = some ⟨0#2, 0xF7#64⟩ := by decide
theorem test_encTr_f32 :
    answerOf (exec (.encTr f32 0x400921FB54442D18#64) State.reset) = some ⟨0#2, 0x40490FDA#64⟩ := by decide
theorem test_encCe_sticky :
    answerOf (exec (.encCe f143 0x0000000000000001#64) State.reset) = some ⟨0#2, 0x01#64⟩ := by decide
theorem test_encCe_negative_past_range :
    answerOf (exec (.encCe f143 0xC070000000000000#64) State.reset) = some ⟨0#2, 0xF7#64⟩ := by decide
theorem test_encFl_negative_infinity :
    answerOf (exec (.encFl f143 0xC06E033333333333#64) State.reset) = some ⟨0#2, 0xF8#64⟩ := by decide
theorem test_encFl_unsigned :
    answerOf (exec (.encFl f011 0xBFD0000000000000#64) State.reset) = some ⟨0#2, 0x3#64⟩ := by decide
theorem test_encDef_absent :
    answerOf (step (asked 0x1D#8 0x406E033333333333#64 ports143)) = some ⟨0#2, 0x77#64⟩ := by decide
theorem test_encDef_ceiling :
    answerOf (step (asked 0x1D#8 0x406E033333333333#64 ports143ce)) = some ⟨0#2, 0x78#64⟩ := by decide

/-! The rounding unit: spec 95 section 6 (the table of terms, then the carry and overflow table). -/

theorem test_ruNe_tie_up_carries :
    unitOf (exec (.ruNe ⟨0xF000000000000#52, false, 14, 1030#11, f143⟩) State.reset)
      = some ⟨1, 15, 0, 15, 0, none⟩ := by decide
theorem test_ruNe_subnormal_to_normal :
    unitOf (exec (.ruNe ⟨0xF000000000000#52, false, 0, 1016#11, f143⟩) State.reset)
      = some ⟨1, 1, 0, 1, 0, none⟩ := by decide
theorem test_ruNa_tie :
    unitOf (exec (.ruNa ⟨0x1000000000000#52, true, 3, 1019#11, f143⟩) State.reset)
      = some ⟨1, 3, 1, 3, 1, none⟩ := by decide
theorem test_ruTr_infinite_source :
    unitOf (exec (.ruTr ⟨0#52, false, 1031, 2047#11, f143⟩) State.reset)
      = some ⟨0, 1031, 0, 15, 0, none⟩ := by decide
theorem test_ruTr_no_carry :
    unitOf (exec (.ruTr ⟨0xF000000000000#52, false, 14, 1030#11, f143⟩) State.reset)
      = some ⟨0, 14, 7, 14, 7, none⟩ := by decide
theorem test_ruCe_negative_past_range :
    unitOf (exec (.ruCe ⟨0#52, true, 15, 1031#11, f143⟩) State.reset)
      = some ⟨0, 15, 0, 14, 7, none⟩ := by decide
theorem test_ruFl_positive_past_range :
    unitOf (exec (.ruFl ⟨0#52, false, 15, 1031#11, f143⟩) State.reset)
      = some ⟨0, 15, 0, 14, 7, none⟩ := by decide
theorem test_ruFl_unsigned :
    unitOf (exec (.ruFl ⟨0x4000000000000#52, true, 0, 1021#11, f011⟩) State.reset)
      = some ⟨1, 0, 1, 0, 1, some 3⟩ := by decide

/-! ## Witnesses: each obligation's hypotheses met together -/

/-- A concrete activation of the rounding unit, at the top of `e`'s range. -/
def u2045 : UnitArgs := ⟨0xF800000000000#52, true, 2045, 2047#11, f143⟩

/-- What a block with one request in flight answers with. -/
def afterOne : State := { State.reset with responses := [⟨0#2, 0x38#64⟩] }

theorem step_of_one_point_zero : step (asked 0x01#8 0x3FF0000000000000#64 ports143) = .next afterOne := rfl

theorem witness_LegalWordsDecodeToTheirOperation :
    (⟨0b100#3, 0#52, false, 0#12, 0#11, ports143⟩ : UnitPorts).sel = 0b100#3 := rfl

theorem witness_IllegalWordsGiveIllegalCommand :
    (asked 0x03#8 0#64 ports143).unitIn = none
      ∧ (asked 0x03#8 0#64 ports143).inFlight = [⟨0x03#8, 0#64, ports143⟩]
      ∧ (0x03#8 ∉ legalCommands ∧ 0xFF#8 ∉ legalCommands)
      ∧ (0x21#8).extractLsb' 5 3 ≠ 0b000#3
      ∧ (0x03#8).extractLsb' 0 2 = 0b11#2
      ∧ ((0x15#8).extractLsb' 0 2 = 0b01#2 ∧ (0x15#8).extractLsb' 2 3 = 0b101#3)
      ∧ ((0x19#8).extractLsb' 0 2 = 0b01#2 ∧ (0x19#8).extractLsb' 2 3 = 0b110#3)
      ∧ ((0x04#8).extractLsb' 0 2 = 0b00#2 ∧ (0x04#8).extractLsb' 2 3 ≠ 0b000#3)
      ∧ ((0x06#8).extractLsb' 0 2 = 0b10#2 ∧ (0x06#8).extractLsb' 2 3 ≠ 0b000#3) := by decide

theorem witness_DecodeOfEncodeIsTheInstruction :
    (Instr.encNe ⟨3, 15, 31, some (-2048), 7⟩ 1#64).wf = true
      ∧ (Instr.dec ⟨0, 0, 0, some 2047, 0⟩ 1#32).wf = true
      ∧ (Instr.ruFl ⟨1#52, true, 4095, 2047#11, ⟨3, 15, 31, none, 7⟩⟩).wf = true := by decide

theorem witness_EncodeOfDecodeLosesIgnoredBitsOnly :
    decode ⟨0x02#8, 0xFFFFFFFF00000077#64, ports143⟩ = .ok (.dec f143 0x77#32)
      ∧ (0x02#8 : CmdWord) ≠ 0x00#8
      ∧ decode ⟨0x01#8, 5#64, ports143⟩ = .ok (.encNe f143 5#64)
      ∧ (0x01#8 : CmdWord) ≠ 0x00#8 ∧ (0x01#8 : CmdWord) ≠ 0x02#8 := by decide

theorem witness_DecodedInstructionsFitThePorts :
    decodeInput (.command ⟨0x00#8, 0#64, ports143⟩) = .ok (.chkfmt f143)
      ∧ decodeInput (.rounding ⟨4#3, 0#52, true, 0xFFF#12, 0#11, ports143⟩)
        = .ok (.ruFl ⟨0#52, true, 4095, 0#11, f143⟩) := by decide

theorem witness_StepRunsTheDecodedInstruction :
    ((asked 0x00#8 0#64 ports143).unitIn = none
      ∧ (asked 0x00#8 0#64 ports143).inFlight = [⟨0x00#8, 0#64, ports143⟩]
      ∧ decode ⟨0x00#8, 0#64, ports143⟩ = .ok (.chkfmt f143))
    ∧ ((State.reset.place (.rounding ⟨2#3, 0#52, true, 3#12, 0#11, ports143⟩)).unitIn
        = some ⟨2#3, 0#52, true, 3#12, 0#11, ports143⟩
      ∧ decodeUnit ⟨2#3, 0#52, true, 3#12, 0#11, ports143⟩ = .ok (.ruTr ⟨0#52, true, 3, 0#11, f143⟩))
    ∧ (State.reset.unitIn = none ∧ State.reset.inFlight = []) := by decide

/-- One descriptor for each check, at the boundary of its range (spec 95 section 3). -/
theorem witness_FirstFailingCheckIsReported :
    ¬((⟨2, 4, 3, none, 7⟩ : FmtArgs).signBits = 0 ∨ (⟨2, 4, 3, none, 7⟩ : FmtArgs).signBits = 1)
    ∧ (⟨1, 0, 3, none, 7⟩ : FmtArgs).exponentBits < 1 ∧ 8 < fBad.exponentBits
    ∧ (⟨1, 8, 0, none, 7⟩ : FmtArgs).significandBits < 1
    ∧ 23 < (⟨0, 1, 24, none, 7⟩ : FmtArgs).significandBits
    ∧ ¬(effectiveBias ⟨1, 4, 3, some (-1), 7⟩ - 1023 ≥ -1023)
    ∧ (effectiveBias ⟨1, 8, 23, some 0, 5⟩ - 1023 ≥ -1023
        ∧ (2 : Int) ^ 8 - effectiveBias ⟨1, 8, 23, some 0, 5⟩ ≤ 1024)
    ∧ ((⟨1, 8, 23, some 0, 5⟩ : FmtArgs).rmDefault = 5 ∨ (⟨1, 8, 23, some 0, 5⟩ : FmtArgs).rmDefault = 6)
    ∧ ((⟨0, 1, 1, none, 6⟩ : FmtArgs).rmDefault = 5 ∨ (⟨0, 1, 1, none, 6⟩ : FmtArgs).rmDefault = 6) := by
  decide

theorem witness_LegalDescriptorHasItsDerivedValues :
    f143.Legal ∧ f143.bias = none ∧ f143.rmDefault = 7
    ∧ (⟨1, 8, 23, some 2047, 4⟩ : FmtArgs).Legal ∧ (⟨0, 1, 1, some 0, 0⟩ : FmtArgs).Legal
    ∧ ¬fBad.Legal := by decide

theorem witness_BiasCheckIsNonNegativity :
    (1 ≤ f011.exponentBits ∧ f011.exponentBits ≤ 8 ∧ f011.bias = none)
    ∧ (1 ≤ (⟨1, 8, 3, some (-1), 7⟩ : FmtArgs).exponentBits
        ∧ (⟨1, 8, 3, some (-1), 7⟩ : FmtArgs).exponentBits ≤ 8
        ∧ (⟨1, 8, 3, some (-1), 7⟩ : FmtArgs).bias = some (0xFFF#12).toInt) := by decide

theorem witness_ChkfmtAnswersWithTheSummary :
    f143.wf = true ∧ f143.Legal
      ∧ (⟨1, 8, 23, some 2047, 4⟩ : FmtArgs).wf = true ∧ (⟨1, 8, 23, some 2047, 4⟩ : FmtArgs).Legal := by
  decide

theorem witness_InvalidDescriptorGivesInvalidFormat :
    fBad.wf = true ∧ validate fBad = .error (.invalidFormat 2 9)
      ∧ .encDef fBad 0#64 ∈ allCommands fBad 0#64 0#32
      ∧ (⟨1, 4, 3, some (-2048), 7⟩ : FmtArgs).wf = true
      ∧ validate ⟨1, 4, 3, some (-2048), 7⟩ = .error (.invalidFormat 4 (-2048)) := by decide

/-- Both sides of the edge of XR (spec 95 section 2). -/
theorem witness_OutsideXrOnlyEncAndDecAreRefused :
    (fOut.Legal ∧ 1022 < effectiveBias fOut + fOut.significandBits)
      ∧ (fEdge.Legal ∧ ¬1022 < effectiveBias fEdge + fEdge.significandBits)
      ∧ .encFl fOut 0#64 ∈ .dec fOut 0#32 :: encCommands fOut 0#64 := by decide

theorem witness_PatternFieldsAreReadWhereTheyLie :
    d143.S ≤ 1 ∧ HasFields d143 0xF8 true 15 0 ∧ d011.S ≤ 1 ∧ HasFields d011 0x3 false 1 1 := by decide

theorem witness_BinarySixtyFourFieldsRoundTrip : 2047 < 2048 ∧ 0 < 2048 := by decide

theorem witness_SpecialPatternsHaveTheirClass :
    d143.InXR ∧ d143.S = 1 ∧ d011.InXR
      ∧ (0 < 0x77 ∧ 0x77 < d143.maxE * 2 ^ d143.M) := by decide

theorem witness_PatternOrderIsValueOrder :
    d143.InXR ∧ 0x76 < 0x77 ∧ 0x77 < d143.maxE * 2 ^ d143.M ∧ 0x78 = d143.maxE * 2 ^ d143.M := by decide

theorem witness_DecOfZero :
    f143.Exact ∧ HasFields (descOf f143) ((0xFFFFFF80#32).toNat % 2 ^ (descOf f143).T) true 0 0
      ∧ f011.Exact ∧ HasFields (descOf f011) ((0x0#32).toNat % 2 ^ (descOf f011).T) false 0 0 := by decide

theorem witness_DecOfSubnormal :
    f143.Exact ∧ HasFields (descOf f143) ((0x05#32).toNat % 2 ^ (descOf f143).T) false 0 5
      ∧ 2 ^ 2 ≤ 5 ∧ 5 < 2 ^ (2 + 1)
      ∧ fEdge.Exact ∧ HasFields (descOf fEdge) ((0x81#32).toNat % 2 ^ (descOf fEdge).T) true 0 1
      ∧ 2 ^ 0 ≤ 1 ∧ 1 < 2 ^ (0 + 1) := by decide

theorem witness_DecOfInfinity :
    f143.Exact
      ∧ HasFields (descOf f143) ((0xF8#32).toNat % 2 ^ (descOf f143).T) true (2 ^ f143.exponentBits - 1) 0
      ∧ f011.Exact ∧ f011.signBits = 0
      ∧ HasFields (descOf f011) ((0x2#32).toNat % 2 ^ (descOf f011).T) false (2 ^ f011.exponentBits - 1) 0 := by
  decide

theorem witness_DecOfNan :
    f143.Exact
      ∧ HasFields (descOf f143) ((0xFF#32).toNat % 2 ^ (descOf f143).T) true (2 ^ f143.exponentBits - 1) 7
      ∧ 7 ≠ 0 := by decide

theorem witness_DecOfNormal :
    f143.Exact ∧ HasFields (descOf f143) ((0xF7#32).toNat % 2 ^ (descOf f143).T) true 14 7
      ∧ 0 < 14 ∧ 14 < 2 ^ f143.exponentBits - 1
      ∧ HasFields (descOf f143) ((0x08#32).toNat % 2 ^ (descOf f143).T) false 1 0 := by decide

theorem witness_DecIgnoresTheBitsAboveT :
    ports143.read.Exact
      ∧ (0xFFFFFFFF00000077#64).toNat % 2 ^ (descOf ports143.read).T
        = (0x77#64).toNat % 2 ^ (descOf ports143.read).T
      ∧ classify (descOf ports143.read) ((0xFFFFFFFF00000077#64).toNat % 2 ^ (descOf ports143.read).T)
        ≠ .nan := by decide

theorem witness_DecIsExact :
    f143.Exact ∧ FinitePattern (descOf f143) ((0x77#32).toNat % 2 ^ (descOf f143).T)
      ∧ FinitePattern (descOf f143) ((0xFFFFFF80#32).toNat % 2 ^ (descOf f143).T)
      ∧ classify (descOf f143) ((0xF8#32).toNat % 2 ^ (descOf f143).T) = .infinity := by decide

theorem witness_DecGivesNoSubnormal :
    f143.Exact ∧ fEdge.Exact ∧ f64Exp (decodePattern d143 0x80 1#52) = 0 := by decide

theorem witness_SubnormalShiftIsTheLeadingZeroCount :
    1 ≤ d143.M ∧ d143.M ≤ 23 ∧ 0 < 7 ∧ 7 < 2 ^ d143.M := by decide

theorem witness_EncAnswersWithThePattern : f143.Exact ∧ f011.Exact ∧ fEdge.Exact := by decide

theorem witness_EncDefActsAsItsDefaultMode :
    (⟨1, 4, 3, none, 4⟩ : FmtArgs).rmDefault = 4 ∧ f143.rmDefault = 7 := by decide

theorem witness_EncOfNanIsAllOnes :
    f143.Exact ∧ 1#52 ≠ 0#52 ∧ .encDef f143 (f64 true 2047 1#52) ∈ encCommands f143 (f64 true 2047 1#52) := by
  decide

theorem witness_EncOfZeros :
    f143.Exact ∧ f143.signBits = 1 ∧ f011.Exact ∧ f011.signBits ≠ 1
      ∧ .encFl f143 0x8000000000000000#64 ∈ encCommands f143 0x8000000000000000#64 := by decide

theorem witness_EncOfInfinities :
    f143.Exact ∧ f143.signBits = 1 ∧ f011.Exact ∧ f011.signBits = 0 := by decide

theorem witness_EncResultFitsThePattern :
    f143.Exact ∧ .encNe f143 0x3FF0000000000000#64 ∈ encCommands f143 0x3FF0000000000000#64
      ∧ ∃ t, exec (.encNe f143 0x3FF0000000000000#64) State.reset = .next t :=
  ⟨by decide, by decide, ⟨afterOne, rfl⟩⟩

theorem witness_EncoderRanges : d143.InXR ∧ d011.InXR ∧ (descOf fEdge).InXR := by decide

theorem witness_StickyBitIsALowerBitOnly :
    1 ≤ d143.M ∧ d143.M ≤ 23 ∧ (2 ^ 52 + 1) % 2 ^ 53 ≠ 0 := by decide

theorem witness_EncOfDecIsThePattern :
    f143.Exact ∧ classify (descOf f143) ((0xF8#32).toNat % 2 ^ (descOf f143).T) ≠ .nan
      ∧ classify (descOf f143) ((0x80#32).toNat % 2 ^ (descOf f143).T) ≠ .nan := by decide

/-- The value of a word and the value of a pattern, at the numbers the witnesses below use. -/
theorem value_one_point_nine : f64Value 0x3FFE666666666666#64 = 8556839292003942 / 4503599627370496 := by
  have h1 : f64Exp 0x3FFE666666666666#64 = 1023 := by decide
  have h2 : f64Frac 0x3FFE666666666666#64 = 4053239664633446 := by decide
  have h3 : f64Sign 0x3FFE666666666666#64 = false := by decide
  norm_num [f64Value, h1, h2, h3, signFactor]

theorem value_of_normal_143 (p ef mf : Nat) (he : patExp d143 p = ef) (h0 : ef ≠ 0)
    (hm : patFrac d143 p = mf) (hs : patSign d143 p = false) :
    patternValue d143 p = (8 + mf) * 2 ^ ((ef : ℤ) - 7 - 3) := by
  subst he hm
  simp only [patternValue, h0, if_false, hs, signFactor, Bool.false_eq_true]
  norm_num [d143]

/-- 1.875 = `0x3F` < 1.9 < 2 = `0x40` (spec 95 section 4.2, section 5). -/
theorem witness_RoundingWithinABucket :
    d143.InXR ∧ 1 ≤ 0x40 ∧ 0x40 < d143.maxE * 2 ^ d143.M
      ∧ f64IsFinite 0x3FFE666666666666#64 = true ∧ f64Sign 0x3FFE666666666666#64 = false
      ∧ patternValue d143 (0x40 - 1) < f64Value 0x3FFE666666666666#64
      ∧ f64Value 0x3FFE666666666666#64 < patternValue d143 0x40 := by
  refine ⟨by decide, by decide, by decide, by decide, by decide, ?_, ?_⟩
  · rw [value_one_point_nine, value_of_normal_143 (0x40 - 1) 7 7 (by decide) (by decide) (by decide) (by decide)]
    norm_num
  · rw [value_one_point_nine, value_of_normal_143 0x40 8 0 (by decide) (by decide) (by decide) (by decide)]
    norm_num

/-- 1.0625, the midpoint of 1.0 = `0x38` and 1.125 = `0x39` (spec 42 R140, R141). -/
theorem witness_RoundingWithinABucket_midpoint :
    d143.InXR ∧ 1 ≤ 0x39 ∧ 0x39 < d143.maxE * 2 ^ d143.M
      ∧ f64IsFinite 0x3FF1000000000000#64 = true ∧ f64Sign 0x3FF1000000000000#64 = false
      ∧ patternValue d143 (0x39 - 1) < f64Value 0x3FF1000000000000#64
      ∧ f64Value 0x3FF1000000000000#64 < patternValue d143 0x39
      ∧ 2 * f64Value 0x3FF1000000000000#64 = patternValue d143 (0x39 - 1) + patternValue d143 0x39 := by
  have hlo : patternValue d143 (0x39 - 1) = 1 := by
    rw [value_of_normal_143 (0x39 - 1) 7 0 (by decide) (by decide) (by decide) (by decide)]
    norm_num
  have hhi : patternValue d143 0x39 = 9 / 8 := by
    rw [value_of_normal_143 0x39 7 1 (by decide) (by decide) (by decide) (by decide)]
    norm_num
  have hx : f64Value 0x3FF1000000000000#64 = 17 / 16 := by
    have h1 : f64Exp 0x3FF1000000000000#64 = 1023 := by decide
    have h2 : f64Frac 0x3FF1000000000000#64 = 2 ^ 48 := by decide
    have h3 : f64Sign 0x3FF1000000000000#64 = false := by decide
    norm_num [f64Value, h1, h2, h3, signFactor]
  rw [hlo, hhi, hx]
  exact ⟨by decide, by decide, by decide, by decide, by decide, by norm_num, by norm_num, by norm_num⟩

/-- 1.96875, above the midpoint of 1.875 = `0x3F` and 2 = `0x40`. -/
theorem witness_RoundingWithinABucket_above :
    d143.InXR ∧ 1 ≤ 0x40 ∧ 0x40 < d143.maxE * 2 ^ d143.M
      ∧ f64IsFinite 0x3FFF800000000000#64 = true ∧ f64Sign 0x3FFF800000000000#64 = false
      ∧ patternValue d143 (0x40 - 1) < f64Value 0x3FFF800000000000#64
      ∧ f64Value 0x3FFF800000000000#64 < patternValue d143 0x40
      ∧ patternValue d143 (0x40 - 1) + patternValue d143 0x40 < 2 * f64Value 0x3FFF800000000000#64 := by
  have hlo : patternValue d143 (0x40 - 1) = 15 / 8 := by
    rw [value_of_normal_143 (0x40 - 1) 7 7 (by decide) (by decide) (by decide) (by decide)]
    norm_num
  have hhi : patternValue d143 0x40 = 2 := by
    rw [value_of_normal_143 0x40 8 0 (by decide) (by decide) (by decide) (by decide)]
    norm_num
  have hx : f64Value 0x3FFF800000000000#64 = 63 / 32 := by
    have h1 : f64Exp 0x3FFF800000000000#64 = 1023 := by decide
    have h2 : f64Frac 0x3FFF800000000000#64 = 31 * 2 ^ 47 := by decide
    have h3 : f64Sign 0x3FFF800000000000#64 = false := by decide
    norm_num [f64Value, h1, h2, h3, signFactor]
  rw [hlo, hhi, hx]
  exact ⟨by decide, by decide, by decide, by decide, by decide, by norm_num, by norm_num, by norm_num⟩

/-- 1.0 is `0x38` (spec 95 section 5). -/
theorem witness_ExactInputsEncodeToTheirPattern :
    d143.InXR ∧ 0x38 < 2 ^ d143.T ∧ FinitePattern d143 0x38
      ∧ f64IsFinite 0x3FF0000000000000#64 = true
      ∧ f64Sign 0x3FF0000000000000#64 = patSign d143 0x38
      ∧ f64Value 0x3FF0000000000000#64 = patternValue d143 0x38 := by
  refine ⟨by decide, by decide, by decide, by decide, by decide, ?_⟩
  have h1 : f64Exp 0x3FF0000000000000#64 = 1023 := by decide
  have h2 : f64Frac 0x3FF0000000000000#64 = 0 := by decide
  have h3 : f64Sign 0x3FF0000000000000#64 = false := by decide
  rw [value_of_normal_143 0x38 7 0 (by decide) (by decide) (by decide) (by decide)]
  norm_num [f64Value, h1, h2, h3, signFactor]

theorem value_minus_248 : f64Value 0xC06F000000000000#64 = -248 := by
  have h1 : f64Exp 0xC06F000000000000#64 = 1030 := by decide
  have h2 : f64Frac 0xC06F000000000000#64 = 4222124650659840 := by decide
  have h3 : f64Sign 0xC06F000000000000#64 = true := by decide
  norm_num [f64Value, h1, h2, h3, signFactor]

theorem threshold_143 : overflowThreshold d143 = 248 := by
  have h1 : d143.maxE = 15 := by decide
  norm_num [overflowThreshold, h1]
  norm_num [d143]

/-- −248, the threshold itself, with `up = Floor` (spec 43 R158; 95 section 5). -/
theorem witness_OverflowOutcomes :
    d143.InXR ∧ d143.S = 1
      ∧ RoundingMode.floor = (if f64Sign 0xC06F000000000000#64 then .floor else .ceiling)
      ∧ f64IsFinite 0xC06F000000000000#64 = true
      ∧ patternValue d143 d143.maxFinite < |f64Value 0xC06F000000000000#64|
      ∧ overflowThreshold d143 ≤ |f64Value 0xC06F000000000000#64| := by
  have hm : d143.maxFinite = 0x77 := by decide
  refine ⟨by decide, by decide, by decide, by decide, ?_, ?_⟩
  · rw [hm, value_minus_248, value_of_normal_143 0x77 14 7 (by decide) (by decide) (by decide) (by decide)]
    norm_num
  · rw [threshold_143, value_minus_248]
    norm_num

/-- 244, above the largest finite 240 and below the threshold 248, with `up = Ceiling` (spec 43 R158). -/
theorem witness_OverflowOutcomes_below :
    d143.InXR ∧ f64Sign 0x406E800000000000#64 = false
      ∧ RoundingMode.ceiling = (if f64Sign 0x406E800000000000#64 then .floor else .ceiling)
      ∧ f64IsFinite 0x406E800000000000#64 = true
      ∧ patternValue d143 d143.maxFinite < |f64Value 0x406E800000000000#64|
      ∧ |f64Value 0x406E800000000000#64| < overflowThreshold d143 := by
  have hm : d143.maxFinite = 0x77 := by decide
  have hx : f64Value 0x406E800000000000#64 = 244 := by
    have h1 : f64Exp 0x406E800000000000#64 = 1030 := by decide
    have h2 : f64Frac 0x406E800000000000#64 = 29 * 2 ^ 47 := by decide
    have h3 : f64Sign 0x406E800000000000#64 = false := by decide
    norm_num [f64Value, h1, h2, h3, signFactor]
  rw [hm, threshold_143, hx, value_of_normal_143 0x77 14 7 (by decide) (by decide) (by decide) (by decide)]
  exact ⟨by decide, by decide, by decide, by decide, by norm_num, by norm_num⟩

theorem witness_SignMirror :
    d143.InXR ∧ d143.S = 1 ∧ f64IsNaN 0x406E033333333333#64 = false := by decide

theorem witness_UnsignedNegativeInputs :
    d011.InXR ∧ d011.S = 0 ∧ f64IsNaN 0xBFE0000000000000#64 = false
      ∧ f64Sign 0xBFE0000000000000#64 = true := by decide

theorem witness_RuTruncate :
    u2045.fmt.Exact ∧ u2045.e ≤ 2045 ∧ u2045.mant = 0xF800000000000#52 ∧ u2045.fmt.significandBits = 3 := by
  decide

theorem witness_RuCeiling_RuFloor :
    ((⟨0xC000000000001#52, false, 0, 0#11, f143⟩ : UnitArgs).fmt.Exact
        ∧ (⟨0xC000000000001#52, false, 0, 0#11, f143⟩ : UnitArgs).e ≤ 2045
        ∧ (0xC000000000001#52).getLsbD 0 = true)
      ∧ u2045.fmt.Exact ∧ u2045.e ≤ 2045 ∧ u2045.s0 = true := by decide

theorem witness_RuNearest :
    (⟨0x3000000000000#52, false, 0, 0#11, f143⟩ : UnitArgs).fmt.Exact
      ∧ (⟨0x3000000000000#52, false, 0, 0#11, f143⟩ : UnitArgs).e ≤ 2045
      ∧ f143.significandBits = 3
      ∧ (0x1000000000000#52).toNat % 2 ^ (52 - f143.significandBits) = 2 ^ (51 - f143.significandBits) := by
  decide

theorem witness_MantissaCarry_OverflowPolicy :
    u2045.fmt.Exact ∧ u2045.e ≤ 2045
      ∧ (0xF000000000000#52).toNat / 2 ^ (52 - f143.significandBits) + 1 = 2 ^ f143.significandBits := by decide

theorem witness_UnsignedRule :
    (⟨0#52, true, 0, 0#11, f011⟩ : UnitArgs).fmt.Exact
      ∧ (⟨0#52, true, 0, 0#11, f011⟩ : UnitArgs).e ≤ 2045
      ∧ (⟨0#52, true, 0, 0#11, f011⟩ : UnitArgs).fmt.signBits = 0
      ∧ (⟨0#52, true, 0, 0#11, f011⟩ : UnitArgs).s0 = true := by decide

/-- −0.25 in `(0,1,1)`: the magnitude is 1 under Floor and 0 under Truncate (spec 95 section 6). -/
theorem witness_UnsignedRule_nonzero :
    (⟨0x4000000000000#52, true, 0, 1021#11, f011⟩ : UnitArgs).fmt.Exact
      ∧ f011.signBits = 0
      ∧ unitOf (exec (ruWith .floor ⟨0x4000000000000#52, true, 0, 1021#11, f011⟩) State.reset)
        = some ⟨1, 0, 1, 0, 1, some 3⟩
      ∧ unitOf (exec (ruWith .truncate ⟨0x4000000000000#52, true, 0, 1021#11, f011⟩) State.reset)
        = some ⟨0, 0, 0, 0, 0, some 0⟩ := by decide

/-- The underflow path: 2^-10 in `(1,4,3)`, `e = 1013 - 1016 = -3`, `k = 4`. -/
theorem witness_EncoderIsAlignRoundPack_underflow :
    f143.Exact ∧ f64IsNaN 0x3F50000000000000#64 = false
      ∧ f64Sign 0x3F50000000000000#64 = false ∧ (1013#11).toNat = f64Exp 0x3F50000000000000#64
      ∧ (f64Exp 0x3F50000000000000#64 : Int) + (effectiveBias f143 - 1023) = -3
      ∧ (4 : Int) = min (1 - (-3)) 53
      ∧ (0x1000000000000#52).toNat = (2 ^ 52 + f64Frac 0x3F50000000000000#64) / 2 ^ 4 ||| 0 := by decide

/-- The normal path: 1.9 in `(1,4,3)`, `e = 1023 - 1016 = 7`. -/
theorem witness_EncoderIsAlignRoundPack_normal :
    f143.Exact ∧ f64IsNaN 0x3FFE666666666666#64 = false
      ∧ f64Sign 0x3FFE666666666666#64 = false ∧ (1023#11).toNat = f64Exp 0x3FFE666666666666#64
      ∧ (7 : Int) = (f64Exp 0x3FFE666666666666#64 : Int) + (effectiveBias f143 - 1023)
      ∧ (0xE666666666666#52).toNat = f64Frac 0x3FFE666666666666#64 := by decide

theorem witness_TiesByTrailingZeroCount :
    1 ≤ d143.M ∧ d143.M ≤ 23 ∧ 0x1000000000000 < 2 ^ 52 ∧ roundBit 0x1000000000000 d143.sh = true := by
  decide

theorem witness_CommandFrame :
    (.encNe f143 0x3FF0000000000000#64 ∈ allCommands f143 0x3FF0000000000000#64 0x7F#32
      ∧ exec (.encNe f143 0x3FF0000000000000#64) State.reset = .next afterOne)
    ∧ .dec f143 0x7F#32 ∈ allCommands f143 0x3FF0000000000000#64 0x7F#32
    ∧ f143.Exact ∧ classify (descOf f143) ((0x7F#32).toNat % 2 ^ (descOf f143).T) = .nan
    ∧ ∃ t, exec (.dec f143 0x7F#32) State.reset = .next t :=
  ⟨⟨by decide, rfl⟩, by decide, by decide, by decide,
    ⟨_, withExactRange_of_exact (f := f143) (by decide) State.reset (fun d =>
      .next ((State.reset.afterDecoding (classify d (patternOf d 0x7F#32))).respondOk
        (decodePattern d (patternOf d 0x7F#32) (drawnFraction State.reset.nanDraws f143 0x7F#32))))⟩⟩

theorem witness_StrategyFrame :
    .ruTr u2045 ∈ allStrategies u2045 ∧ (∃ t, exec (.ruTr u2045) State.reset = .next t)
      ∧ ¬((⟨0#52, false, 2046, 0#11, f143⟩ : UnitArgs).fmt.Exact
          ∧ (⟨0#52, false, 2046, 0#11, f143⟩ : UnitArgs).e ≤ 2045) :=
  ⟨by decide, ⟨_, runUnit_of_exact (u := u2045) (by decide) (by decide) .truncate State.reset⟩, by decide⟩

theorem witness_StepKeepsTheInvariant :
    (asked 0x01#8 0x3FF0000000000000#64 ports143).Inv
      ∧ step (asked 0x01#8 0x3FF0000000000000#64 ports143) = .next afterOne :=
  ⟨by decide, step_of_one_point_zero⟩

/-- Two different blocks with the same request at the head. -/
def busy : State :=
  { State.reset with
    inFlight  := [⟨0x01#8, 0x3FF0000000000000#64, ports143⟩, ⟨0x03#8, 0#64, ports143⟩]
    responses := [⟨2#2, 3#64⟩] }

theorem witness_ResponseDependsOnItsRequestAlone_ReissuingIsSafe :
    (asked 0x01#8 0x3FF0000000000000#64 ports143).unitIn = none ∧ busy.unitIn = none
      ∧ (asked 0x01#8 0x3FF0000000000000#64 ports143).nanDraws = busy.nanDraws
      ∧ (asked 0x01#8 0x3FF0000000000000#64 ports143).inFlight
        = [⟨0x01#8, 0x3FF0000000000000#64, ports143⟩]
      ∧ busy.inFlight = ⟨0x01#8, 0x3FF0000000000000#64, ports143⟩ :: [⟨0x03#8, 0#64, ports143⟩]
      ∧ step (asked 0x01#8 0x3FF0000000000000#64 ports143) = .next afterOne :=
  ⟨rfl, rfl, rfl, rfl, rfl, step_of_one_point_zero⟩

/-- A request that is answered, and one that the model refuses (spec 95 section 3). -/
theorem witness_StepRefinesTheRequestFunction :
    op ⟨0x01#8, 0x3FF0000000000000#64, ports143⟩ 1#52 = .ok ⟨0#2, 0x38#64⟩
      ∧ op ⟨0x01#8, 0x3FF0000000000000#64, fOut.toPorts⟩ 1#52 = .error .unsupportedRange := by decide

theorem witness_EveryRequestEndsInOneOutcome :
    Request.OutsideXR ⟨0x02#8, 1#64, fOut.toPorts⟩ ∧ ¬Request.OutsideXR ⟨0x00#8, 1#64, fOut.toPorts⟩
      ∧ ¬Request.OutsideXR ⟨0x02#8, 1#64, ports143⟩ :=
  ⟨by decide, by decide, by decide⟩

theorem witness_AcceptedRequestsAreAllAnsweredInOrder :
    busy.unitIn = none ∧ ∀ r ∈ busy.inFlight, ¬r.OutsideXR := by decide

theorem witness_FirstRequestIsLikeAnyOther :
    State.unitIn { afterOne with unitOut := none } = none ∧ afterOne.inFlight = []
      ∧ ∃ t, step (State.reset.submit ⟨0x01#8, 0x3FF0000000000000#64, ports143⟩) = .next t :=
  ⟨rfl, rfl, ⟨afterOne, step_of_one_point_zero⟩⟩

/-- DEC of a NaN pattern: the sign and the exponent field, whatever the fraction (spec 95 section 4.1). -/
theorem test_dec_nan (n : Fraction) :
    (decodePattern d143 0xFF n).extractLsb' 52 12 = 0xFFF#12 := by
  have hc : classify d143 0xFF = .nan := by decide
  have hs : patSign d143 0xFF = true := by decide
  simp only [decodePattern, hc, hs, f64, Config.nativeMaxExponent, BitVec.extractLsb'_append_eq_left]
  rfl

end Sys2Proof.Tests
end

/-! The state and the step: what a descriptor check and `op` can answer, that a step answers a request as
`op` says, and the obligations on the step, the frame and the invariant that follow. -/

/-! ## The decoder -/

namespace Sys2Proof

/-- The three fields make up the command word (spec 30 R51). -/
theorem cmd_toNat_eq_fields (c : CmdWord) : c.toNat = cmdRes c * 32 + cmdRm c * 4 + cmdOp c := by
  have hlt := c.isLt
  simp only [cmdRes, cmdRm, cmdOp, BitVec.extractLsb'_toNat, Nat.shiftRight_eq_div_pow]
  omega

theorem mem_legalCommands_iff_toNat (c : CmdWord) :
    c ∈ legalCommands ↔ c.toNat ∈ [0x00, 0x01, 0x05, 0x09, 0x0D, 0x11, 0x1D, 0x02] := by
  simp [legalCommands, ← BitVec.toNat_inj]

/-! What each legal word decodes to (spec 30 R58). -/

section legalWords
variable (a : Word64) (fmt : FmtPorts)

theorem decode_chkfmt : decode ⟨0x00#8, a, fmt⟩ = .ok (.chkfmt fmt.read) := by
  simp [decode, cmdRes, cmdOp, cmdRm]

theorem decode_encNe : decode ⟨0x01#8, a, fmt⟩ = .ok (.encNe fmt.read a) := by
  simp [decode, cmdRes, cmdOp, cmdRm]

theorem decode_encNa : decode ⟨0x05#8, a, fmt⟩ = .ok (.encNa fmt.read a) := by
  simp [decode, cmdRes, cmdOp, cmdRm]

theorem decode_encTr : decode ⟨0x09#8, a, fmt⟩ = .ok (.encTr fmt.read a) := by
  simp [decode, cmdRes, cmdOp, cmdRm]

theorem decode_encCe : decode ⟨0x0D#8, a, fmt⟩ = .ok (.encCe fmt.read a) := by
  simp [decode, cmdRes, cmdOp, cmdRm]

theorem decode_encFl : decode ⟨0x11#8, a, fmt⟩ = .ok (.encFl fmt.read a) := by
  simp [decode, cmdRes, cmdOp, cmdRm]

theorem decode_encDef : decode ⟨0x1D#8, a, fmt⟩ = .ok (.encDef fmt.read a) := by
  simp [decode, cmdRes, cmdOp, cmdRm]

theorem decode_dec : decode ⟨0x02#8, a, fmt⟩ = .ok (.dec fmt.read (decOperand a)) := by
  simp [decode, cmdRes, cmdOp, cmdRm]

end legalWords

/-- Only the eight legal words decode (spec 30 R58, R59). -/
theorem mem_legalCommands_of_decode {r : Request} {i : Instr} (h : decode r = .ok i) :
    r.cmd ∈ legalCommands := by
  have hfields := cmd_toNat_eq_fields r.cmd
  rw [mem_legalCommands_iff_toNat]
  unfold decode at h
  split at h
  · cases h
  split at h
  · split at h <;> cases h; simp_all
  · split at h <;> cases h <;> simp_all
  · split at h <;> cases h; simp_all
  · cases h

/-- The descriptor bundle's fields fit the ports they come from (spec 10 R24; 30 R62). -/
theorem FmtPorts.read_wf (f : FmtPorts) : f.read.wf = true := by
  have hlo := f.bias.le_toInt
  have hhi := f.bias.toInt_lt
  have hb : biasFits f.read.bias = true := by
    cases hx : f.biasExplicit with
    | false => simp [FmtPorts.read, hx, biasFits]
    | true =>
      simp only [FmtPorts.read, hx, if_true, biasFits, Bool.and_eq_true, decide_eq_true_eq]
      omega
  simp only [FmtArgs.wf, Bool.and_eq_true, decide_eq_true_eq]
  exact ⟨⟨⟨⟨f.sign.isLt, f.exp.isLt⟩, f.sig.isLt⟩, hb⟩, f.rmDefault.isLt⟩

/-- The rounding unit's inputs fit the ports they come from (spec 42 R125; 43 R149). -/
theorem UnitPorts.read_wf (u : UnitPorts) : u.read.wf = true := by
  simp only [UnitArgs.wf, Bool.and_eq_true, decide_eq_true_eq]
  exact ⟨u.e.isLt, u.fmt.read_wf⟩

/-- A command is well formed exactly when its descriptor is. -/
theorem wf_of_mem_allCommands {f : FmtArgs} {x : Word64} {p : PatternWord} {i : Instr}
    (hi : i ∈ allCommands f x p) : i.wf = f.wf := by
  simp only [allCommands, encCommands, List.mem_cons, List.not_mem_nil, or_false] at hi
  rcases hi with rfl | rfl | rfl | rfl | rfl | rfl | rfl | rfl <;> rfl

/-- A strategy is well formed exactly when its operands are. -/
theorem wf_of_mem_allStrategies {u : UnitArgs} {i : Instr} (hi : i ∈ allStrategies u) :
    i.wf = u.wf := by
  simp only [allStrategies, List.mem_cons, List.not_mem_nil, or_false] at hi
  rcases hi with rfl | rfl | rfl | rfl | rfl <;> rfl

end Sys2Proof

namespace Sys2Proof.Machine

/-! ## The descriptor check -/

/-- Everything the check can report: one of the five parameters, with a value (spec 40 R92, R93). -/
theorem validate_error_cases {f : FmtArgs} {err : BlockError} (h : validate f = .error err) :
    ∃ param value, err = .invalidFormat param value ∧ 1 ≤ param ∧ param ≤ 5 := by
  unfold validate at h
  split at h
  · cases h; exact ⟨1, _, rfl, by decide, by decide⟩
  split at h
  · cases h; exact ⟨2, _, rfl, by decide, by decide⟩
  split at h
  · cases h; exact ⟨3, _, rfl, by decide, by decide⟩
  split at h
  · cases h; exact ⟨4, _, rfl, by decide, by decide⟩
  split at h
  · cases h; exact ⟨5, _, rfl, by decide, by decide⟩
  · cases h

/-- Only a legal descriptor passes the check (spec 40 R80 to R87). -/
theorem legal_of_validate {f : FmtArgs} {d : Desc} (h : validate f = .ok d) : f.Legal := by
  unfold validate at h
  split at h
  · cases h
  split at h
  · cases h
  split at h
  · cases h
  split at h
  · cases h
  rename_i hS hE hM hB
  split at h
  · cases h
  rename_i m hm
  simp only [not_not, biasInRange, Bool.and_eq_true, decide_eq_true_eq] at hB
  exact ⟨not_not.1 hS, by omega, by omega, hB, (defaultMode_eq_some hm).1⟩

/-- A descriptor that passes the check with its XR bit set is a legal one in XR (spec 40 R89). -/
theorem exact_of_validate {f : FmtArgs} {d : Desc} (h : validate f = .ok d) (hx : d.xr = true) :
    f.Exact := by
  rw [(validate_ok_cases h).1, xr_descOf] at hx
  exact ⟨legal_of_validate h, hx⟩

/-- One that passes with its XR bit clear is not in XR. -/
theorem not_exact_of_validate {f : FmtArgs} {d : Desc} (h : validate f = .ok d)
    (hx : d.xr = false) : ¬f.Exact := by
  intro hf
  rw [(validate_ok_cases h).1, (xr_descOf f).2 hf.2] at hx
  cases hx

/-! ## The cases of `op` -/

section op
variable {r : Request} {d : Desc} (nanFrac : Fraction)

theorem op_of_illegal (hc : r.cmd ∉ legalCommands) :
    op r nanFrac = .ok (errorResponse (.illegalCommand r.cmd)) := by
  rw [op, if_pos hc]
  rfl

theorem op_of_invalidFormat {err : BlockError} (hc : r.cmd ∈ legalCommands)
    (hv : validate r.fmt.read = .error err) : op r nanFrac = .ok (errorResponse err) := by
  simp [op, hc, hv]

theorem op_of_chkfmt (hc : r.cmd = 0x00#8) (hv : validate r.fmt.read = .ok d) :
    op r nanFrac = .ok ⟨0#2, summary d⟩ := by
  simp [op, hc, hv, legalCommands]

theorem op_of_outside_xr (hc : r.cmd ∈ legalCommands) (h0 : r.cmd ≠ 0x00#8)
    (hv : validate r.fmt.read = .ok d) (hx : d.xr = false) :
    op r nanFrac = .error .unsupportedRange := by
  have hlt : 1022 < d.B + d.M := by simpa [Desc.xr] using hx
  simp [op, hc, h0, hv, hlt]

theorem op_of_dec (hc : r.cmd = 0x02#8) (hv : validate r.fmt.read = .ok d) (hx : d.xr = true) :
    op r nanFrac = .ok ⟨0#2, decodePattern d (patternOf d (decOperand r.a)) nanFrac⟩ := by
  have hle : ¬1022 < d.B + d.M := by simpa [Desc.xr] using hx
  simp [op, hc, hv, hle, legalCommands]

theorem op_of_enc (hc : r.cmd ∈ legalCommands) (h0 : r.cmd ≠ 0x00#8) (h2 : r.cmd ≠ 0x02#8)
    (hv : validate r.fmt.read = .ok d) (hx : d.xr = true) :
    op r nanFrac = .ok ⟨0#2, BitVec.ofNat 64 (encodeF64 d (effectiveMode r.cmd d) r.a)⟩ := by
  have hle : ¬1022 < d.B + d.M := by simpa [Desc.xr] using hx
  simp [op, hc, h0, h2, hv, hle]

/-- Everything `op` can answer, in the priority order of spec 60 R184. -/
theorem op_cases (r : Request) (nanFrac : Fraction) :
    (r.cmd ∉ legalCommands ∧ op r nanFrac = .ok (errorResponse (.illegalCommand r.cmd)))
      ∨ (∃ err, validate r.fmt.read = .error err ∧ op r nanFrac = .ok (errorResponse err))
      ∨ (r.OutsideXR ∧ op r nanFrac = .error .unsupportedRange)
      ∨ (∃ v, op r nanFrac = .ok ⟨0#2, v⟩) := by
  by_cases hc : r.cmd ∈ legalCommands
  swap
  · exact .inl ⟨hc, op_of_illegal nanFrac hc⟩
  cases hv : validate r.fmt.read with
  | error err => exact .inr (.inl ⟨err, rfl, op_of_invalidFormat nanFrac hc hv⟩)
  | ok d =>
    by_cases h0 : r.cmd = 0x00#8
    · exact .inr (.inr (.inr ⟨_, op_of_chkfmt nanFrac h0 hv⟩))
    cases hx : d.xr with
    | false =>
      exact .inr (.inr (.inl ⟨⟨hc, h0, legal_of_validate hv, not_exact_of_validate hv hx⟩,
        op_of_outside_xr nanFrac hc h0 hv hx⟩))
    | true =>
      by_cases h2 : r.cmd = 0x02#8
      · exact .inr (.inr (.inr ⟨_, op_of_dec nanFrac h2 hv hx⟩))
      · exact .inr (.inr (.inr ⟨_, op_of_enc nanFrac hc h0 h2 hv hx⟩))

/-- A request that is not outside XR has a response (spec 60 R183). -/
theorem exists_op_ok (h : ¬r.OutsideXR) : ∃ rsp, op r nanFrac = .ok rsp := by
  rcases op_cases r nanFrac with ⟨-, e⟩ | ⟨err, -, e⟩ | ⟨hout, -⟩ | ⟨v, e⟩
  · exact ⟨_, e⟩
  · exact ⟨_, e⟩
  · exact absurd hout h
  · exact ⟨_, e⟩

end op

/-! ## The responses are sound -/

theorem sound_of_status_zero (v : Word64) : Response.Sound ⟨0#2, v⟩ := by
  simp [Response.Sound]

/-- An InvalidFormat response carries its parameter in `r[7:0]` (spec 60 R181). -/
theorem sound_invalidFormat {param : Nat} (value : Int) (h1 : 1 ≤ param) (h5 : param ≤ 5) :
    (errorResponse (.invalidFormat param value)).Sound := by
  have hlow : (BitVec.ofInt 56 value ++ BitVec.ofNat 8 param).extractLsb' 0 8 = BitVec.ofNat 8 param :=
    BitVec.extractLsb'_append_eq_right
  have hmod : param % 256 = param := Nat.mod_eq_of_lt (by omega)
  simp [Response.Sound, errorResponse, hlow, hmod, h1, h5]

/-- An IllegalCommand response carries its word, zero-extended (spec 60 R182). -/
theorem sound_illegalCommand {c : CmdWord} (h : c ∉ legalCommands) :
    (errorResponse (.illegalCommand c)).Sound := by
  have hlow : (c.setWidth 64).extractLsb' 0 8 = c := by
    rw [← BitVec.setWidth_eq_extractLsb' (by decide), BitVec.setWidth_setWidth_of_le c (by decide),
      BitVec.setWidth_eq]
  have hlt : (c.setWidth 64).toNat < 256 := by
    rw [BitVec.toNat_setWidth_of_le (by decide)]
    exact c.isLt
  simp only [Response.Sound, errorResponse, hlow]
  exact ⟨by decide, nofun, fun _ => ⟨hlt, h⟩⟩

/-- Every response of `op` is one the block can give (spec 10 R26; 60 R181, R182). -/
theorem op_sound {r : Request} {nanFrac : Fraction} {rsp : Response} (h : op r nanFrac = .ok rsp) :
    rsp.Sound := by
  rcases op_cases r nanFrac with ⟨hc, e⟩ | ⟨err, hv, e⟩ | ⟨-, e⟩ | ⟨v, e⟩ <;>
    rw [e] at h <;> cases h
  · exact sound_illegalCommand hc
  · obtain ⟨param, value, rfl, h1, h5⟩ := validate_error_cases hv
    exact sound_invalidFormat value h1 h5
  · exact sound_of_status_zero v

/-! ## A step answers a request as `op` says -/

/-- The outcome `o` is what `op` says of the request `r` under the fraction `nanFrac`: the refusal, or the
response added to `s` with nothing else changed but the count of draws. -/
def AnswersAsOp (r : Request) (nanFrac : Fraction) (s : State) (o : Outcome) : Prop :=
  (∃ ref, op r nanFrac = .error ref ∧ o = .refused ref)
    ∨ ∃ rsp n, op r nanFrac = .ok rsp ∧ o = .next { s.respond rsp with nanDraws := n }

/-- The fraction that DEC of the request `r` takes as the draw of number `n`. -/
def requestFraction (n : Nat) (r : Request) : Fraction :=
  drawnFraction n r.fmt.read (decOperand r.a)

theorem requestFraction_ne_zero (n : Nat) (r : Request) : requestFraction n r ≠ 0#52 :=
  drawnFraction_ne_zero n _ _

section answers
variable {r : Request} (nanFrac : Fraction) (s : State)

theorem raise_answersAsOp {err : BlockError} (h : op r nanFrac = .ok (errorResponse err)) :
    AnswersAsOp r nanFrac s (.next (s.raise err)) :=
  .inr ⟨_, s.nanDraws, h, rfl⟩

theorem execChkfmt_answersAsOp (hc : r.cmd = 0x00#8) :
    AnswersAsOp r nanFrac s (execChkfmt r.fmt.read s) := by
  have hl : r.cmd ∈ legalCommands := by rw [hc]; decide
  rcases withDescriptor_cases r.fmt.read s fun d => .next (s.respondOk (summary d)) with
    ⟨err, hv, e⟩ | ⟨d, hv, e⟩ <;> rw [execChkfmt, e]
  · exact raise_answersAsOp nanFrac s (op_of_invalidFormat nanFrac hl hv)
  · exact .inr ⟨_, s.nanDraws, op_of_chkfmt nanFrac hc hv, rfl⟩

theorem encodeCommand_answersAsOp (hc : r.cmd ∈ legalCommands) (h0 : r.cmd ≠ 0x00#8)
    (h2 : r.cmd ≠ 0x02#8) :
    AnswersAsOp r nanFrac s (encodeCommand r.fmt.read r.a (effectiveMode r.cmd) s) := by
  rcases encodeCommand_cases r.fmt.read r.a (effectiveMode r.cmd) s with
    ⟨err, hv, e⟩ | ⟨d, hv, hx, e⟩ | ⟨d, hv, hx, e⟩ <;> rw [e]
  · exact raise_answersAsOp nanFrac s (op_of_invalidFormat nanFrac hc hv)
  · exact .inl ⟨_, op_of_outside_xr nanFrac hc h0 hv hx, rfl⟩
  · exact .inr ⟨_, s.nanDraws, op_of_enc nanFrac hc h0 h2 hv hx, rfl⟩

/-- DEC counts at most one draw; the rest of the state it keeps. -/
theorem respond_afterDecoding (c : PatternClass) (rsp : Response) :
    (s.afterDecoding c).respond rsp
      = { s.respond rsp with nanDraws := (s.afterDecoding c).nanDraws } := by
  cases c <;> rfl

theorem execDec_answersAsOp (hc : r.cmd = 0x02#8) :
    AnswersAsOp r (requestFraction s.nanDraws r) s (execDec r.fmt.read (decOperand r.a) s) := by
  have hl : r.cmd ∈ legalCommands := by rw [hc]; decide
  have h0 : r.cmd ≠ 0x00#8 := by rw [hc]; decide
  rcases execDec_cases r.fmt.read (decOperand r.a) s with
    ⟨err, hv, e⟩ | ⟨d, hv, hx, e⟩ | ⟨d, hv, hx, e⟩ <;> rw [e]
  · exact raise_answersAsOp _ s (op_of_invalidFormat _ hl hv)
  · exact .inl ⟨_, op_of_outside_xr _ hl h0 hv hx, rfl⟩
  · rw [State.respondOk_eq, respond_afterDecoding]
    exact .inr ⟨_, _, op_of_dec _ hc hv hx, rfl⟩

end answers

/-- What a legal command word decodes to: CHKFMT, DEC, or an ENC command in its effective mode
(spec 30 R57, R58). -/
theorem decode_legal_cases {r : Request} (hc : r.cmd ∈ legalCommands) :
    (r.cmd = 0x00#8 ∧ decode r = .ok (.chkfmt r.fmt.read))
      ∨ (r.cmd = 0x02#8 ∧ decode r = .ok (.dec r.fmt.read (decOperand r.a)))
      ∨ (r.cmd ≠ 0x00#8 ∧ r.cmd ≠ 0x02#8 ∧ ∃ i, decode r = .ok i
          ∧ ∀ s, exec i s = encodeCommand r.fmt.read r.a (effectiveMode r.cmd) s) := by
  obtain ⟨cmd, a, fmt⟩ := r
  dsimp only at hc ⊢
  simp only [legalCommands, List.mem_cons, List.not_mem_nil, or_false] at hc
  rcases hc with rfl | rfl | rfl | rfl | rfl | rfl | rfl | rfl
  · exact .inl ⟨rfl, decode_chkfmt a fmt⟩
  · exact .inr (.inr ⟨nofun, nofun, _, decode_encNe a fmt, fun _ => rfl⟩)
  · exact .inr (.inr ⟨nofun, nofun, _, decode_encNa a fmt, fun _ => rfl⟩)
  · exact .inr (.inr ⟨nofun, nofun, _, decode_encTr a fmt, fun _ => rfl⟩)
  · exact .inr (.inr ⟨nofun, nofun, _, decode_encCe a fmt, fun _ => rfl⟩)
  · exact .inr (.inr ⟨nofun, nofun, _, decode_encFl a fmt, fun _ => rfl⟩)
  · exact .inr (.inr ⟨nofun, nofun, _, decode_encDef a fmt, fun _ => rfl⟩)
  · exact .inr (.inl ⟨rfl, decode_dec a fmt⟩)

/-- With the rounding unit idle, the step answers the oldest request as `op` says (spec 10 R31; 60 R184). -/
theorem step_answersAsOp {s : State} {r : Request} {rest : List Request} (hu : s.unitIn = none)
    (hq : s.inFlight = r :: rest) :
    AnswersAsOp r (requestFraction s.nanDraws r) { s with inFlight := rest } (step s) := by
  rw [step_of_request hu hq]
  by_cases hc : r.cmd ∈ legalCommands
  · rcases decode_legal_cases hc with ⟨h0, hd⟩ | ⟨h2, hd⟩ | ⟨h0, h2, i, hd, hi⟩ <;> rw [hd]
    · exact execChkfmt_answersAsOp _ _ h0
    · exact execDec_answersAsOp { s with inFlight := rest } h2
    · simp only [hi]
      exact encodeCommand_answersAsOp _ _ hc h0 h2
  · cases hd : decode r with
    | ok i => exact absurd (mem_legalCommands_of_decode hd) hc
    | error err => exact raise_answersAsOp _ _ (op_of_illegal _ hc)

/-! ## The rounding unit's ranges -/

/-- A strategy that answers presents the unit's outputs on inputs of spec 43 R149. -/
theorem exec_strategy_output {u : UnitArgs} {i : Instr} {s t : State} (hi : i ∈ allStrategies u)
    (h : exec i s = .next t) :
    ∃ d rm, d.InXR ∧ u.e ≤ 2045
      ∧ t = s.presentUnit (roundingUnit d rm u.mant.toNat u.s0 u.e0.toNat u.e) := by
  have hrun : ∀ rm, runUnit rm u s = .next t → ∃ d rm, d.InXR ∧ u.e ≤ 2045
      ∧ t = s.presentUnit (roundingUnit d rm u.mant.toNat u.s0 u.e0.toNat u.e) := by
    intro rm h
    rcases runUnit_cases rm u s with e | ⟨d, hv, hx, he, e⟩ <;> rw [e] at h <;> cases h
    exact ⟨d, rm, inXR_of_validate hv hx, he, rfl⟩
  simp only [allStrategies, List.mem_cons, List.not_mem_nil, or_false] at hi
  rcases hi with rfl | rfl | rfl | rfl | rfl <;> exact hrun _ h

/-- The retained part is an `M`-bit number (spec 43 R149). -/
theorem retained_lt {d : Desc} (hM : d.M ≤ 52) {mant : Nat} (h : mant < 2 ^ 52) :
    retained mant d.sh < 2 ^ d.M := by
  apply Nat.div_lt_of_lt_mul
  rwa [← pow_add, Desc.sh, Config.nativeFractionBits, Nat.sub_add_cancel hM]

/-- The carry raises the exponent by at most one and leaves an `M`-bit number (spec 43 R156). -/
theorem carry_ranges {d : Desc} {e r : Nat} (hr : r ≤ 2 ^ d.M) :
    (carry d e r).1 ≤ e + 1 ∧ (carry d e r).2 < 2 ^ d.M := by
  rcases carry_cases d e r with ⟨-, hc⟩ | ⟨hne, hc⟩ <;> rw [hc]
  · exact ⟨le_rfl, Nat.two_pow_pos d.M⟩
  · exact ⟨Nat.le_succ e, lt_of_le_of_ne hr hne⟩

/-- The overflow policy ends in a pair the format can hold (spec 43 R157). -/
theorem overflow_ranges {d : Desc} {rm : RoundingMode} {s0 : Bool} {e0 e r : Nat}
    (hr : r < 2 ^ d.M) :
    (overflow d rm s0 e0 e r).1 ≤ d.maxE ∧ (overflow d rm s0 e0 e r).2 < 2 ^ d.M := by
  have hpos := Nat.two_pow_pos d.M
  rcases overflow_cases d rm s0 e0 e r with ⟨hlt, ho⟩ | ⟨-, -, -, ho⟩ | ⟨-, -, ho⟩ <;> rw [ho]
  · exact ⟨hlt.le, hr⟩
  · exact ⟨Nat.sub_le _ _, Nat.sub_lt hpos Nat.one_pos⟩
  · exact ⟨le_rfl, hpos⟩

theorem maxE_le_255 {d : Desc} (hE : d.E ≤ 8) : d.maxE ≤ 255 :=
  Nat.sub_le_sub_right (Nat.pow_le_pow_right (by decide) hE) 1

/-- The ranges of everything the unit gives (spec 42 R125; 43 R150 to R157). -/
theorem roundingUnit_ranges {d : Desc} (hd : d.InXR) (rm : RoundingMode) {mant : Nat}
    (hm : mant < 2 ^ 52) (s0 : Bool) (e0 e : Nat) :
    (roundingUnit d rm mant s0 e0 e).inc ≤ 1
      ∧ (roundingUnit d rm mant s0 e0 e).eCarried ≤ e + 1
      ∧ (roundingUnit d rm mant s0 e0 e).rCarried < 2 ^ d.M
      ∧ (roundingUnit d rm mant s0 e0 e).e ≤ d.maxE
      ∧ (roundingUnit d rm mant s0 e0 e).r < 2 ^ d.M := by
  obtain ⟨-, -, ⟨-, hM⟩, -, -⟩ := hd
  have hinc := increment_le_one rm mant d.sh s0
  have hret := retained_lt (d := d) (by omega) hm
  obtain ⟨he, hr⟩ := carry_ranges (d := d) (e := e)
    (show retained mant d.sh + increment rm mant d.sh s0 ≤ 2 ^ d.M by omega)
  obtain ⟨hfe, hfr⟩ := overflow_ranges (rm := rm) (s0 := s0) (e0 := e0)
    (e := (carry d e (retained mant d.sh + increment rm mant d.sh s0)).1) hr
  exact ⟨hinc, he, hr, hfe, hfr⟩

/-- A strategy that answers keeps the responses and presents outputs in range. -/
theorem exec_strategy_keeps_inv {u : UnitArgs} {i : Instr} {s t : State} (hi : i ∈ allStrategies u)
    (hs : s.ResponsesSound) (h : exec i s = .next t) : t.Inv := by
  obtain ⟨d, rm, hd, he, rfl⟩ := exec_strategy_output hi h
  refine ⟨hs, fun o ho => ?_⟩
  obtain rfl := Option.some.inj ho
  obtain ⟨hinc, hec, hrc, hfe, hfr⟩ :=
    roundingUnit_ranges hd rm u.mant.isLt u.s0 u.e0.toNat u.e
  obtain ⟨-, ⟨-, hE⟩, ⟨-, hM⟩, -, -⟩ := hd
  have hpow : 2 ^ d.M ≤ 2 ^ 23 := Nat.pow_le_pow_right (by decide) hM
  exact ⟨hinc, by omega, hrc.trans_le hpow, hfe.trans (maxE_le_255 hE), hfr.trans_le hpow⟩

/-- One more sound response keeps the responses sound. -/
theorem responsesSound_append {s : State} {rsp : Response} (hs : s.ResponsesSound)
    (h : rsp.Sound) : ∀ q ∈ s.responses ++ [rsp], q.Sound := by
  intro q hq
  rcases List.mem_append.1 hq with hq | hq
  · exact hs q hq
  · rwa [List.mem_singleton.1 hq]

/-- Settles O52: the idle step changes nothing, a request is answered as `op` says, and an activation of
the rounding unit presents outputs in range. -/
theorem stepKeepsTheInvariant : Obligations.StepKeepsTheInvariant := by
  intro s t ⟨hresp, hout⟩ h
  rcases takeInput_cases s with ⟨e, -, -⟩ | ⟨r, rest, -, hu, hq⟩ | ⟨u, -, hu⟩
  · rw [step, e] at h
    cases h
    exact ⟨hresp, hout⟩
  · rcases step_answersAsOp hu hq with ⟨ref, -, e⟩ | ⟨rsp, n, hop, e⟩ <;> rw [e] at h <;> cases h
    exact ⟨responsesSound_append hresp (op_sound hop), hout⟩
  · rw [step_of_unit hu] at h
    cases hd : decodeUnit u with
    | error err => rw [hd] at h; cases h
    | ok i =>
      rw [hd] at h
      exact exec_strategy_keeps_inv (s := { s with unitIn := none }) (decodeUnit_mem_allStrategies hd) hresp h

/-! ## The decoded instruction -/

/-- Settles O5: a request decodes to a command on its own descriptor, an activation to a strategy on its
own operands, and both are read off ports of their width. -/
theorem decodedInstructionsFitThePorts : Obligations.DecodedInstructionsFitThePorts := by
  intro inp i h
  cases inp with
  | command r => rw [wf_of_mem_allCommands (decode_mem_allCommands h), FmtPorts.read_wf]
  | rounding u => rw [wf_of_mem_allStrategies (decodeUnit_mem_allStrategies h), UnitPorts.read_wf]

/-- Settles O6: one clause for each input a step can take up, and one for none. -/
theorem stepRunsTheDecodedInstruction : Obligations.StepRunsTheDecodedInstruction := by
  refine ⟨fun s r rest i hu hq hd => ?_, fun s u i hu hd => ?_, fun s hu hq => ?_⟩
  · rw [step_of_request hu hq, hd]
  · rw [step_of_unit hu, hd]
  · rw [step, takeInput_of_idle hu hq]

/-! ## The frame of the commands -/

/-- A command other than DEC that answers gives one response and changes nothing else. -/
theorem exec_next_of_not_dec {f : FmtArgs} {x : Word64} {i : Instr} {s t : State}
    (hi : i = .chkfmt f ∨ i ∈ encCommands f x) (h : exec i s = .next t) :
    ∃ rsp, t = s.respond rsp := by
  have henc : ∀ rm : Desc → RoundingMode, encodeCommand f x rm s = .next t →
      ∃ rsp, t = s.respond rsp := by
    intro rm h
    rcases encodeCommand_cases f x rm s with ⟨err, -, e⟩ | ⟨d, -, -, e⟩ | ⟨d, -, -, e⟩ <;>
      rw [e] at h <;> cases h
    · exact ⟨errorResponse err, rfl⟩
    · exact ⟨⟨0#2, _⟩, rfl⟩
  simp only [encCommands, List.mem_cons, List.not_mem_nil, or_false] at hi
  rcases hi with rfl | rfl | rfl | rfl | rfl | rfl | rfl
  · rcases withDescriptor_cases f s fun d => .next (s.respondOk (summary d)) with
      ⟨err, -, e⟩ | ⟨d, -, e⟩ <;> (rw [exec, execChkfmt, e] at h; cases h)
    · exact ⟨errorResponse err, rfl⟩
    · exact ⟨⟨0#2, _⟩, rfl⟩
  all_goals exact henc _ h

/-- DEC counts a draw exactly where it meets a NaN pattern in XR (spec 41 R106). -/
theorem execDec_nanDraws {f : FmtArgs} {p : PatternWord} {s t : State}
    (h : execDec f p s = .next t) :
    (f.Exact ∧ classify (descOf f) (patternOf (descOf f) p) = .nan ∧ t.nanDraws = s.nanDraws + 1)
      ∨ (¬(f.Exact ∧ classify (descOf f) (patternOf (descOf f) p) = .nan)
          ∧ t.nanDraws = s.nanDraws) := by
  rcases execDec_cases f p s with ⟨err, hv, e⟩ | ⟨d, -, -, e⟩ | ⟨d, hv, hx, e⟩ <;>
    rw [e] at h <;> cases h
  · refine .inr ⟨fun ⟨hf, _⟩ => ?_, rfl⟩
    rw [validate_of_legal hf.1] at hv
    cases hv
  · obtain rfl := (validate_ok_cases hv).1
    by_cases hn : classify (descOf f) (patternOf (descOf f) p) = .nan
    · exact .inl ⟨exact_of_validate hv hx, hn, by simp [State.respondOk_eq, hn]⟩
    · exact .inr ⟨fun hf => hn hf.2, by simp [State.respondOk_eq, State.afterDecoding_of_ne_nan _ _ hn]⟩

/-- Settles O50: what every command keeps, and then the count of draws, for DEC and for the others. -/
theorem commandFrame : Obligations.CommandFrame := by
  intro f x p i s t hi h
  obtain ⟨rsp, n, ht⟩ := exec_command_next hi h
  refine ⟨by rw [ht]; rfl, by rw [ht]; rfl, by rw [ht]; rfl, ⟨rsp, by rw [ht]; rfl⟩, ?_⟩
  by_cases hdec : i = .dec f p
  · subst hdec
    rcases execDec_nanDraws h with ⟨hf, hn, e⟩ | ⟨hno, e⟩
    · exact ⟨fun _ => e, fun hno => absurd ⟨rfl, hf, hn⟩ hno⟩
    · exact ⟨fun hyes => absurd hyes.2 hno, fun _ => e⟩
  · have hi' : i = .chkfmt f ∨ i ∈ encCommands f x := by
      simpa [allCommands, hdec] using hi
    obtain ⟨rsp', rfl⟩ := exec_next_of_not_dec hi' h
    exact ⟨fun hyes => absurd hyes.1 hdec, fun _ => rfl⟩

/-! ## Requests and their responses -/

/-- Settles O55: the fraction is the one that DEC of this request would draw. -/
theorem stepRefinesTheRequestFunction : Obligations.StepRefinesTheRequestFunction := by
  intro s r rest hu hq
  refine ⟨requestFraction s.nanDraws r, requestFraction_ne_zero _ r, ?_⟩
  rcases step_answersAsOp hu hq with ⟨ref, hop, e⟩ | ⟨rsp, n, hop, e⟩ <;> rw [hop]
  · exact ⟨by rintro _ ⟨⟩; exact e, nofun⟩
  · exact ⟨nofun, by rintro _ ⟨⟩; exact ⟨n, e⟩⟩

/-- A step that answers a request adds the response of `op`, and the requests behind it stay. -/
theorem step_next_of_op {s : State} {r : Request} {rest : List Request} {rsp : Response}
    (hu : s.unitIn = none) (hq : s.inFlight = r :: rest)
    (hop : op r (requestFraction s.nanDraws r) = .ok rsp) :
    ∃ t, step s = .next t ∧ t.inFlight = rest ∧ t.unitIn = none
      ∧ t.responses = s.responses ++ [rsp] := by
  rcases step_answersAsOp hu hq with ⟨ref, hop', e⟩ | ⟨rsp', n, hop', e⟩ <;>
    rw [hop] at hop' <;> cases hop'
  exact ⟨_, e, rfl, hu, rfl⟩

/-- Settles O56: the response is `op` of the request and of the fraction that the count of draws gives. -/
theorem responseDependsOnItsRequestAlone : Obligations.ResponseDependsOnItsRequestAlone := by
  intro s₁ s₂ t₁ r rest₁ rest₂ hu₁ hu₂ hn hq₁ hq₂ h
  rcases step_answersAsOp hu₁ hq₁ with ⟨ref, -, e⟩ | ⟨rsp, n, hop, e⟩ <;> rw [e] at h <;> cases h
  rw [hn] at hop
  obtain ⟨t₂, hstep, -, -, hresp⟩ := step_next_of_op hu₂ hq₂ hop
  exact ⟨rsp, t₂, hstep, rfl, hresp⟩

/-- A run goes on from the state that its first step answers. -/
theorem run_succ_of_step {s t : State} (h : step s = .next t) (n : Nat) :
    Host.Core.run Sys2Proof.core (n + 1) s = Host.Core.run Sys2Proof.core n t := by
  have hcore : Host.Core.step Sys2Proof.core s = .next t := h
  simp only [Host.Core.run, hcore]

/-- Settles O59, by induction on the requests in flight. -/
theorem acceptedRequestsAreAllAnsweredInOrder : Obligations.AcceptedRequestsAreAllAnsweredInOrder := by
  intro s hu hin
  induction hq : s.inFlight generalizing s with
  | nil => exact ⟨s, [], rfl, hq, (List.append_nil _).symm, .nil⟩
  | cons r rest ih =>
    rw [hq, List.forall_mem_cons] at hin
    obtain ⟨hr, hrest⟩ := hin
    obtain ⟨rsp, hop⟩ := exists_op_ok (requestFraction s.nanDraws r) hr
    obtain ⟨s', hstep, hq', hu', hresp'⟩ := step_next_of_op hu hq hop
    obtain ⟨t, given, hrun, ht, hresp, hall⟩ := ih s' hu' (by rwa [hq']) hq'
    refine ⟨t, rsp :: given, ?_, ht, ?_, .cons ⟨_, requestFraction_ne_zero _ r, hop⟩ hall⟩
    · rw [List.length_cons, run_succ_of_step hstep, hrun]
    · rw [hresp, hresp', List.append_assoc, List.singleton_append]

end Sys2Proof.Machine

/-! Words, selects and fields (spec 30): that encoding and decoding agree, what an illegal word gives, where
the fields of a pattern and of a binary64 word lie, and that pattern order is value order. -/

/-! ## Encoding -/

namespace Sys2Proof

/-- A mode select with a mode's code selects that mode's strategy (spec 30 R56, R60). -/
theorem decodeUnit_of_modeCode (rm : RoundingMode) {u : UnitPorts}
    (h : u.sel.toNat = Machine.modeCode rm) : decodeUnit u = .ok (ruWith rm u.read) := by
  unfold decodeUnit
  rw [h]
  cases rm <;> rfl

/-- A bias that fits its port is read back (spec 30 R62). -/
theorem toInt_ofInt_bias {b : Int} (h : biasFits (some b) = true) : (BitVec.ofInt 12 b).toInt = b := by
  simp only [biasFits, Bool.and_eq_true, decide_eq_true_eq] at h
  exact BitVec.toInt_ofInt_eq_self (by decide) (by omega) (by omega)

/-- Parameters that fit the descriptor bundle are read back from it (spec 30 R62). -/
theorem FmtArgs.read_toPorts {f : FmtArgs} (h : f.wf = true) : f.toPorts.read = f := by
  obtain ⟨S, E, M, bias, rmd⟩ := f
  simp only [FmtArgs.wf, Bool.and_eq_true, decide_eq_true_eq] at h
  obtain ⟨⟨⟨⟨hS, hE⟩, hM⟩, hbias⟩, hrmd⟩ := h
  have hb : (if bias.isSome then some (BitVec.ofInt 12 (bias.getD 0)).toInt else none) = bias := by
    cases bias with
    | none => rfl
    | some b => simp [toInt_ofInt_bias hbias]
  simp only [FmtArgs.toPorts, FmtPorts.read, FmtArgs.mk.injEq, BitVec.toNat_ofNat]
  exact ⟨Nat.mod_eq_of_lt hS, Nat.mod_eq_of_lt hE, Nat.mod_eq_of_lt hM, hb, Nat.mod_eq_of_lt hrmd⟩

/-- The bundle is written back as it was read, with the bias bits 0 where the default bias is asked for
(spec 30 R62; notes/assumptions/15.md). -/
theorem FmtPorts.toPorts_read (f : FmtPorts) :
    f.read.toPorts = if f.biasExplicit then f else { f with bias := 0#12 } := by
  obtain ⟨sign, exp, sig, biasExplicit, bias, rmDefault⟩ := f
  cases biasExplicit <;> simp [FmtPorts.read, FmtArgs.toPorts]

/-- The unit's operands are read back from its ports (spec 42 R125; 43 R149). -/
theorem UnitArgs.read_toPorts {u : UnitArgs} (h : u.wf = true) (sel : BitVec 3) :
    (u.toPorts sel).read = u := by
  simp only [UnitArgs.wf, Bool.and_eq_true, decide_eq_true_eq] at h
  obtain ⟨he, hf⟩ := h
  simp only [UnitArgs.toPorts, UnitPorts.read, FmtArgs.read_toPorts hf, BitVec.toNat_ofNat,
    Nat.mod_eq_of_lt he]

/-- DEC's pattern word is read back from `a[31:0]` (spec 30 R63). -/
theorem decOperand_setWidth (p : PatternWord) : decOperand (p.setWidth 64) = p := by
  rw [decOperand, BitVec.extractLsb'_setWidth_of_le (by decide), BitVec.extractLsb'_eq_self]

/-- An activation under a mode's select decodes to that mode's strategy on the operands it carries. -/
theorem decodeUnit_toPorts (rm : RoundingMode) (sel : BitVec 3)
    (hsel : sel.toNat = Machine.modeCode rm) {u : UnitArgs} (h : u.wf = true) :
    decodeUnit (u.toPorts sel) = .ok (ruWith rm u) := by
  rw [decodeUnit_of_modeCode rm (show (u.toPorts sel).sel.toNat = _ from hsel), UnitArgs.read_toPorts h]

/-- Settles O3: each command by its word, each strategy by its mode select; the operands are read back
from the ports because they fit them. -/
theorem decodeOfEncodeIsTheInstruction : Obligations.DecodeOfEncodeIsTheInstruction := by
  intro i h
  cases i with
  | chkfmt f => exact (decode_chkfmt _ _).trans (by rw [FmtArgs.read_toPorts h])
  | encNe f x => exact (decode_encNe _ _).trans (by rw [FmtArgs.read_toPorts h])
  | encNa f x => exact (decode_encNa _ _).trans (by rw [FmtArgs.read_toPorts h])
  | encTr f x => exact (decode_encTr _ _).trans (by rw [FmtArgs.read_toPorts h])
  | encCe f x => exact (decode_encCe _ _).trans (by rw [FmtArgs.read_toPorts h])
  | encFl f x => exact (decode_encFl _ _).trans (by rw [FmtArgs.read_toPorts h])
  | encDef f x => exact (decode_encDef _ _).trans (by rw [FmtArgs.read_toPorts h])
  | dec f p => exact (decode_dec _ _).trans (by rw [FmtArgs.read_toPorts h, decOperand_setWidth])
  | ruNe u => exact decodeUnit_toPorts .nearestEven 0#3 rfl h
  | ruNa u => exact decodeUnit_toPorts .nearestAway 1#3 rfl h
  | ruTr u => exact decodeUnit_toPorts .truncate 2#3 rfl h
  | ruCe u => exact decodeUnit_toPorts .ceiling 3#3 rfl h
  | ruFl u => exact decodeUnit_toPorts .floor 4#3 rfl h

/-- The fields of the legal words: no reserved bit, no `op = 11`, no unassigned ENC rounding field, and no
rounding field on CHKFMT and DEC (spec 30 R52 to R55, R58). -/
theorem fields_of_mem_legalCommands : ∀ c ∈ legalCommands,
    c.extractLsb' 5 3 = 0b000#3
      ∧ c.extractLsb' 0 2 ≠ 0b11#2
      ∧ (c.extractLsb' 0 2 = 0b01#2 → c.extractLsb' 2 3 ≠ 0b101#3 ∧ c.extractLsb' 2 3 ≠ 0b110#3)
      ∧ (c.extractLsb' 0 2 = 0b00#2 ∨ c.extractLsb' 0 2 = 0b10#2 → c.extractLsb' 2 3 = 0b000#3) := by
  decide

open Machine in
/-- The oldest request, if its word is none of the legal ones, gets the IllegalCommand response and nothing
else changes (spec 30 R59; 60 R182). -/
theorem step_of_illegal_word {s : State} {r : Request} {rest : List Request} (hu : s.unitIn = none)
    (hq : s.inFlight = r :: rest) (hc : r.cmd ∉ legalCommands) :
    step s = .next (State.raise (.illegalCommand r.cmd) { s with inFlight := rest }) := by
  rw [step_of_request hu hq]
  cases hd : decode r with
  | ok i => exact absurd (mem_legalCommands_of_decode hd) hc
  | error err => rfl

/-- Settles O2: a word with a field error is none of the legal ones. -/
theorem illegalWordsGiveIllegalCommand : Obligations.IllegalWordsGiveIllegalCommand := by
  intro s r rest hu hq h
  have hc : r.cmd ∉ legalCommands := by
    intro hmem
    obtain ⟨hres, hop, henc, hrm⟩ := fields_of_mem_legalCommands r.cmd hmem
    rcases h with h | h | h | ⟨h, h5 | h6⟩ | ⟨h, h0⟩
    · exact h hmem
    · exact h hres
    · exact hop h
    · exact (henc h).1 h5
    · exact (henc h).2 h6
    · exact h0 (hrm h)
  exact step_of_illegal_word hu hq hc

/-- What a request decodes to is encoded under the same word and the descriptor as it was read; `a` comes
back but for the bits that CHKFMT and DEC do not read (spec 30 R62, R63). -/
theorem encode_of_decode {r : Request} {i : Instr} (h : decode r = .ok i) :
    ∃ a : Word64, encode i = .command ⟨r.cmd, a, r.fmt.read.toPorts⟩
      ∧ (r.cmd ≠ 0x00#8 → a.extractLsb' 0 32 = r.a.extractLsb' 0 32)
      ∧ (r.cmd ≠ 0x00#8 → r.cmd ≠ 0x02#8 → a = r.a) := by
  have hc := mem_legalCommands_of_decode h
  obtain ⟨cmd, a, fmt⟩ := r
  simp only [legalCommands, List.mem_cons, List.not_mem_nil, or_false] at hc
  rcases hc with rfl | rfl | rfl | rfl | rfl | rfl | rfl | rfl <;>
    simp only [decode_chkfmt, decode_encNe, decode_encNa, decode_encTr, decode_encCe, decode_encFl,
      decode_encDef, decode_dec, Except.ok.injEq] at h <;> subst h
  case inl => exact ⟨_, rfl, fun h0 => absurd rfl h0, fun h0 => absurd rfl h0⟩
  case inr.inr.inr.inr.inr.inr.inr =>
    exact ⟨_, rfl, fun _ => decOperand_setWidth (decOperand a), fun _ h2 => absurd rfl h2⟩
  all_goals exact ⟨a, rfl, fun _ => rfl, fun _ _ => rfl⟩

/-- Settles O4: the word and `a` as `encode_of_decode` says, the bundle written back as it was read. -/
theorem encodeOfDecodeLosesIgnoredBitsOnly : Obligations.EncodeOfDecodeLosesIgnoredBitsOnly := by
  intro r i h
  obtain ⟨a, henc, hlow, hall⟩ := encode_of_decode h
  exact ⟨_, henc, rfl, r.fmt.toPorts_read, hlow, hall⟩

/-- Settles O1: the eight words by the decoder's lemmas, the five selects as codes of their modes. -/
theorem legalWordsDecodeToTheirOperation : Obligations.LegalWordsDecodeToTheirOperation := by
  refine ⟨fun a fmt => ⟨decode_chkfmt a fmt, decode_encNe a fmt, decode_encNa a fmt, decode_encTr a fmt,
    decode_encCe a fmt, decode_encFl a fmt, decode_encDef a fmt, decode_dec a fmt⟩, fun u => ?_⟩
  have hsel (rm : RoundingMode) {sel : BitVec 3} (hcode : sel.toNat = Machine.modeCode rm)
      (h : u.sel = sel) : decodeUnit u = .ok (ruWith rm u.read) :=
    decodeUnit_of_modeCode rm (by rw [h, hcode])
  exact ⟨hsel .nearestEven rfl, hsel .nearestAway rfl, hsel .truncate rfl, hsel .ceiling rfl,
    hsel .floor rfl⟩

end Sys2Proof

/-! ## Fields and values -/

namespace Sys2Proof.Machine

/-! ### The fields of a pattern (spec 30 R64) -/

/-- The two low fields stay below the sign bit. -/
theorem lowFields_lt_signBit {d : Desc} {ef mf : Nat} (he : ef < 2 ^ d.E) (hm : mf < 2 ^ d.M) :
    ef * 2 ^ d.M + mf < d.signBit := by
  have hle : (ef + 1) * 2 ^ d.M ≤ 2 ^ d.E * 2 ^ d.M := Nat.mul_le_mul_right _ he
  rw [Desc.signBit, pow_add]
  linarith

theorem two_pow_T_of_unsigned {d : Desc} (h : d.S = 0) : 2 ^ d.T = d.signBit := by
  rw [Desc.T, Desc.signBit, h, Nat.zero_add]

theorem two_pow_T_of_signed {d : Desc} (h : d.S = 1) : 2 ^ d.T = d.signBit + d.signBit := by
  rw [Desc.T, Desc.signBit, h, Nat.add_assoc, pow_add, pow_one, Nat.two_mul]

/-- A pattern with these fields, its sign bit and exponent field taken together (spec 30 R64). -/
theorem patternFrom_eq (d : Desc) (sg : Bool) (ef mf : Nat) :
    patternFrom d sg ef mf = ((if sg then 1 else 0) * 2 ^ d.E + ef) * 2 ^ d.M + mf := by
  cases sg <;> simp [patternFrom, pow_add, Nat.add_mul]

section fields
variable {d : Desc} {p : Nat} {sg : Bool} {ef mf : Nat}

theorem patFrac_of_hasFields (h : HasFields d p sg ef mf) : patFrac d p = mf := by
  obtain ⟨rfl, -, hm, -⟩ := h
  rw [patFrac, patternFrom_eq, Nat.mul_add_mod', Nat.mod_eq_of_lt hm]

theorem patExp_of_hasFields (h : HasFields d p sg ef mf) : patExp d p = ef := by
  obtain ⟨rfl, he, hm, -⟩ := h
  rw [patExp, patternFrom_eq, Nat.mul_comm, Nat.mul_add_div (Nat.two_pow_pos _),
    Nat.div_eq_of_lt hm, Nat.add_zero, Nat.mul_add_mod', Nat.mod_eq_of_lt he]

theorem patSign_of_hasFields (hS : d.S ≤ 1) (h : HasFields d p sg ef mf) : patSign d p = sg := by
  obtain ⟨rfl, he, hm, hsg⟩ := h
  have hlow : (ef * 2 ^ d.M + mf).testBit (d.E + d.M) = false :=
    Nat.testBit_lt_two_pow (lowFields_lt_signBit he hm)
  cases sg with
  | false => simp [patSign, patternFrom, hlow]
  | true =>
    have hone : d.S = 1 := by
      have hne : d.S ≠ 0 := fun h0 => nomatch hsg h0
      omega
    simp [patSign, patternFrom, hone, Nat.add_assoc, Nat.testBit_two_pow_add_eq, hlow]

theorem lt_of_hasFields (hS : d.S ≤ 1) (h : HasFields d p sg ef mf) : p < 2 ^ d.T := by
  obtain ⟨rfl, he, hm, hsg⟩ := h
  have hlow := lowFields_lt_signBit he hm
  rw [patternFrom, ← Desc.signBit, Nat.add_assoc]
  obtain hz | hone : d.S = 0 ∨ d.S = 1 := by omega
  · simpa [hsg hz, two_pow_T_of_unsigned hz] using hlow
  · rw [two_pow_T_of_signed hone]
    split <;> omega

end fields

/-- Settles O13. -/
theorem patternFieldsAreReadWhereTheyLie : Obligations.PatternFieldsAreReadWhereTheyLie :=
  fun _ _ _ _ _ hS h => ⟨patSign_of_hasFields hS h, patExp_of_hasFields h, patFrac_of_hasFields h,
    lt_of_hasFields hS h⟩

/-! ### The fields of a binary64 word (spec 30 R70) -/

section f64
variable (s : Bool) (fr : Fraction) (w : Word64)

@[simp] theorem f64Sign_f64 (ex : Nat) : f64Sign (f64 s ex fr) = s := by
  rw [f64Sign, f64, BitVec.getLsbD_append, BitVec.getLsbD_append]
  simp

@[simp] theorem f64Exp_f64 {ex : Nat} (h : ex < 2048) : f64Exp (f64 s ex fr) = ex := by
  rw [f64Exp, f64, BitVec.extractLsb'_append_eq_of_le (by decide), BitVec.extractLsb'_append_eq_right,
    BitVec.toNat_ofNat, Nat.mod_eq_of_lt h]

@[simp] theorem f64Frac_f64 (ex : Nat) : f64Frac (f64 s ex fr) = fr.toNat := by
  rw [f64Frac, f64, BitVec.extractLsb'_append_eq_right]

/-- A word is `F64` of its own fields. -/
theorem f64_of_fields : f64 (f64Sign w) (f64Exp w) (BitVec.ofNat 52 (f64Frac w)) = w := by
  have hsign : BitVec.ofBool (f64Sign w) = w.extractLsb' 63 1 := by
    apply BitVec.eq_of_getLsbD_eq
    intro i hi
    obtain rfl : i = 0 := by omega
    simp [f64Sign]
  rw [f64, f64Exp, f64Frac, hsign, BitVec.ofNat_toNat, BitVec.ofNat_toNat, BitVec.setWidth_eq,
    BitVec.setWidth_eq, BitVec.extractLsb'_append_extractLsb'_eq_extractLsb' (by decide)]
  exact BitVec.extractLsb'_append_extractLsb'

end f64

/-- Settles O14. -/
theorem binarySixtyFourFieldsRoundTrip : Obligations.BinarySixtyFourFieldsRoundTrip :=
  ⟨fun s _ fr h => ⟨f64Sign_f64 s fr _, f64Exp_f64 s fr h, f64Frac_f64 s fr _⟩, f64_of_fields⟩

/-! ### The classes of the patterns (spec 30 R65, R68) -/

theorem maxE_add_one (d : Desc) : d.maxE + 1 = 2 ^ d.E :=
  Nat.sub_add_cancel (Nat.two_pow_pos d.E)

theorem maxE_lt (d : Desc) : d.maxE < 2 ^ d.E :=
  Nat.sub_lt (Nat.two_pow_pos d.E) Nat.one_pos

theorem maxE_pos {d : Desc} (hE : 1 ≤ d.E) : 0 < d.maxE :=
  Nat.sub_pos_of_lt (Nat.one_lt_two_pow (by omega))

theorem one_lt_two_pow_M {d : Desc} (hM : 1 ≤ d.M) : 1 < 2 ^ d.M :=
  Nat.one_lt_two_pow (by omega)

/-- The patterns below +Inf have sign 0. -/
theorem posInf_lt_signBit (d : Desc) : d.posInf < d.signBit :=
  lowFields_lt_signBit (maxE_lt d) (Nat.two_pow_pos d.M)

section classes
variable {d : Desc} {p : Nat} {sg : Bool}

theorem classify_zero_of_hasFields (h : HasFields d p sg 0 0) : classify d p = .zero := by
  simp [classify, patExp_of_hasFields h, patFrac_of_hasFields h]

theorem classify_infinity_of_hasFields (hE : 1 ≤ d.E) (h : HasFields d p sg d.maxE 0) :
    classify d p = .infinity := by
  simp [classify, patExp_of_hasFields h, patFrac_of_hasFields h, (maxE_pos hE).ne']

theorem classify_nan_of_hasFields {mf : Nat} (hE : 1 ≤ d.E) (h : HasFields d p sg d.maxE mf)
    (hmf : mf ≠ 0) : classify d p = .nan := by
  simp [classify, patExp_of_hasFields h, patFrac_of_hasFields h, (maxE_pos hE).ne', hmf]

/-- A pattern whose exponent field is below `maxE` is finite (spec 30 R65). -/
theorem finitePattern_of_patExp_lt (h : patExp d p < d.maxE) : FinitePattern d p := by
  unfold FinitePattern classify
  by_cases h0 : patExp d p = 0
  · by_cases hf : patFrac d p = 0 <;> simp [h0, hf]
  · simp [h0, h.ne]

theorem patSign_of_lt_signBit (h : p < d.signBit) : patSign d p = false := by
  rw [patSign, Nat.testBit_lt_two_pow h, Bool.and_false]

theorem patExp_of_lt_signBit (h : p < d.signBit) : patExp d p = p / 2 ^ d.M := by
  rw [patExp, Nat.mod_eq_of_lt]
  rw [Desc.signBit, Nat.add_comm, pow_add] at h
  exact Nat.div_lt_of_lt_mul h

/-- The patterns below +Inf are finite (spec 30 R68). -/
theorem finitePattern_of_lt_posInf (h : p < d.posInf) : FinitePattern d p := by
  apply finitePattern_of_patExp_lt
  rw [patExp_of_lt_signBit (h.trans (posInf_lt_signBit d))]
  rw [Desc.posInf, Nat.mul_comm] at h
  exact Nat.div_lt_of_lt_mul h

end classes

/-! ### The values of the sign-0 patterns (spec 30 R66, R69) -/

/-- The magnitude with these fields, in units of the smallest positive value (spec 30 R66). -/
def magnitude (d : Desc) (ef mf : Nat) : Nat :=
  if ef = 0 then mf else (2 ^ d.M + mf) * 2 ^ (ef - 1)

/-- A pattern's value is its signed magnitude times the smallest positive value. -/
theorem patternValue_eq_magnitude (d : Desc) (p : Nat) :
    patternValue d p
      = signFactor (patSign d p) * magnitude d (patExp d p) (patFrac d p) * 2 ^ (1 - d.B - d.M) := by
  by_cases h : patExp d p = 0
  · simp [patternValue, magnitude, h]
  · have hexp : (2 : ℚ) ^ ((patExp d p : ℤ) - d.B - d.M)
        = 2 ^ (patExp d p - 1) * 2 ^ (1 - d.B - d.M) := by
      rw [← zpow_natCast, ← zpow_add₀ two_ne_zero]
      congr 1
      omega
    simp only [patternValue, magnitude, h, if_false, hexp]
    push_cast
    ring

section magnitude
variable {d : Desc} {ef ef' mf mf' : Nat}

theorem magnitude_lt_of_frac_lt (h : mf < mf') : magnitude d ef mf < magnitude d ef mf' := by
  unfold magnitude
  split
  · exact h
  · exact Nat.mul_lt_mul_of_pos_right (by omega) (Nat.two_pow_pos _)

/-- A magnitude is below every one of the next exponent. -/
theorem magnitude_lt (h : mf < 2 ^ d.M) : magnitude d ef mf < 2 ^ d.M * 2 ^ ef := by
  cases ef with
  | zero => simpa [magnitude] using h
  | succ n =>
    rw [magnitude, if_neg n.succ_ne_zero, Nat.add_sub_cancel, pow_succ', ← Nat.mul_assoc]
    exact Nat.mul_lt_mul_of_pos_right (by omega) (Nat.two_pow_pos n)

theorem le_magnitude (h : ef ≠ 0) : 2 ^ d.M * 2 ^ (ef - 1) ≤ magnitude d ef mf := by
  rw [magnitude, if_neg h]
  exact Nat.mul_le_mul_right _ (Nat.le_add_right _ _)

theorem magnitude_lt_of_exp_lt (hm : mf < 2 ^ d.M) (h : ef < ef') :
    magnitude d ef mf < magnitude d ef' mf' :=
  calc magnitude d ef mf
    _ < 2 ^ d.M * 2 ^ ef := magnitude_lt hm
    _ ≤ 2 ^ d.M * 2 ^ (ef' - 1) :=
      Nat.mul_le_mul_left _ (Nat.pow_le_pow_right (by decide) (by omega))
    _ ≤ magnitude d ef' mf' := le_magnitude (by omega)

end magnitude

/-- Pattern order is the order of the fields, exponent first, and so the order of the magnitudes. -/
theorem magnitude_lt_of_pattern_lt {d : Desc} {p q : Nat} (h : p < q) :
    magnitude d (p / 2 ^ d.M) (p % 2 ^ d.M) < magnitude d (q / 2 ^ d.M) (q % 2 ^ d.M) := by
  rcases (Nat.div_le_div_right (c := 2 ^ d.M) h.le).lt_or_eq with hlt | heq
  · exact magnitude_lt_of_exp_lt (Nat.mod_lt _ (Nat.two_pow_pos _)) hlt
  · have hfrac : p % 2 ^ d.M < q % 2 ^ d.M := by
      have hp := Nat.div_add_mod p (2 ^ d.M)
      have hq := Nat.div_add_mod q (2 ^ d.M)
      rw [heq] at hp
      omega
    rw [heq]
    exact magnitude_lt_of_frac_lt hfrac

section sign0
variable {d : Desc} {p q : Nat}

theorem patternValue_of_lt_signBit (h : p < d.signBit) :
    patternValue d p = magnitude d (p / 2 ^ d.M) (p % 2 ^ d.M) * 2 ^ (1 - d.B - d.M) := by
  rw [patternValue_eq_magnitude, patSign_of_lt_signBit h, patExp_of_lt_signBit h, patFrac]
  simp [signFactor]

theorem patternValue_lt_of_lt (h : p < q) (hq : q < d.signBit) :
    patternValue d p < patternValue d q := by
  rw [patternValue_of_lt_signBit (h.trans hq), patternValue_of_lt_signBit hq]
  have hmag : ((magnitude d (p / 2 ^ d.M) (p % 2 ^ d.M) : Nat) : ℚ)
      < magnitude d (q / 2 ^ d.M) (q % 2 ^ d.M) := Nat.cast_lt.2 (magnitude_lt_of_pattern_lt h)
  exact mul_lt_mul_of_pos_right hmag (zpow_pos two_pos _)

theorem patternValue_le_of_le (h : p ≤ q) (hq : q < d.signBit) :
    patternValue d p ≤ patternValue d q := by
  rcases h.lt_or_eq with hlt | rfl
  · exact (patternValue_lt_of_lt hlt hq).le
  · exact le_rfl

end sign0

theorem patternValue_zero (d : Desc) : patternValue d 0 = 0 := by
  simp [patternValue, patExp, patFrac]

/-! ### The special patterns (spec 30 R68) -/

section special
variable (d : Desc)

theorem hasFields_zero : HasFields d 0 false 0 0 :=
  ⟨by simp [patternFrom], Nat.two_pow_pos _, Nat.two_pow_pos _, fun _ => rfl⟩

theorem hasFields_posInf : HasFields d d.posInf false d.maxE 0 :=
  ⟨by simp [patternFrom, Desc.posInf], maxE_lt d, Nat.two_pow_pos _, fun _ => rfl⟩

variable {d}

theorem hasFields_signBit (hS : d.S = 1) : HasFields d d.signBit true 0 0 :=
  ⟨by simp [patternFrom, Desc.signBit], Nat.two_pow_pos _, Nat.two_pow_pos _, fun h => by omega⟩

theorem hasFields_negInf (hS : d.S = 1) : HasFields d (d.signBit + d.posInf) true d.maxE 0 :=
  ⟨by simp [patternFrom, Desc.signBit, Desc.posInf], maxE_lt d, Nat.two_pow_pos _, fun h => by omega⟩

/-- The all-ones pattern has every field at its greatest value. -/
theorem hasFields_allOnes (hS : d.S ≤ 1) :
    HasFields d d.allOnes (decide (d.S = 1)) d.maxE (2 ^ d.M - 1) := by
  refine ⟨?_, maxE_lt d, Nat.sub_lt (Nat.two_pow_pos _) Nat.one_pos, fun h => by simp [h]⟩
  have hM := Nat.two_pow_pos d.M
  have hsucc : d.maxE * 2 ^ d.M + 2 ^ d.M = d.signBit := by
    rw [← Nat.succ_mul, Nat.succ_eq_add_one, maxE_add_one, Desc.signBit, pow_add]
  obtain hz | hone : d.S = 0 ∨ d.S = 1 := by omega
  · rw [Desc.allOnes, two_pow_T_of_unsigned hz, patternFrom, if_neg (by simp [hz])]
    omega
  · rw [Desc.allOnes, two_pow_T_of_signed hone, patternFrom, if_pos (by simp [hone]), ← Desc.signBit]
    omega

theorem posInf_pos (hE : 1 ≤ d.E) : 0 < d.posInf :=
  Nat.mul_pos (maxE_pos hE) (Nat.two_pow_pos _)

theorem one_lt_posInf (hE : 1 ≤ d.E) (hM : 1 ≤ d.M) : 1 < d.posInf :=
  (one_lt_two_pow_M hM).trans_le (Nat.le_mul_of_pos_left _ (maxE_pos hE))

theorem maxFinite_lt_posInf (hE : 1 ≤ d.E) : d.maxFinite < d.posInf :=
  Nat.sub_lt (posInf_pos hE) Nat.one_pos

/-- The largest finite pattern has the greatest exponent field of a finite one and an all-ones
significand. -/
theorem maxFinite_eq (hE : 1 ≤ d.E) : d.maxFinite = (d.maxE - 1) * 2 ^ d.M + (2 ^ d.M - 1) := by
  have hM := Nat.two_pow_pos d.M
  obtain ⟨n, hn⟩ : ∃ n, d.maxE = n + 1 := Nat.exists_eq_add_one.2 (maxE_pos hE)
  rw [Desc.maxFinite, Desc.posInf, hn, Nat.succ_mul, Nat.add_sub_cancel, Nat.add_sub_assoc hM]

end special

/-- Settles O15: the classes and signs by the patterns' fields, the extremal values by the order of the
sign-0 patterns. -/
theorem specialPatternsHaveTheirClass : Obligations.SpecialPatternsHaveTheirClass := by
  rintro d ⟨hS, ⟨hE, -⟩, ⟨hM, -⟩, -, -⟩
  have hmax := (maxFinite_lt_posInf hE).trans (posInf_lt_signBit d)
  have hone := (one_lt_posInf hE hM).trans (posInf_lt_signBit d)
  refine ⟨classify_zero_of_hasFields (hasFields_zero d), fun h => ⟨?_, ?_⟩, ?_, ?_, fun h => ⟨?_, ?_⟩,
    maxFinite_eq hE, finitePattern_of_lt_posInf (maxFinite_lt_posInf hE), fun p hp => ?_, ?_,
    fun p h0 hp => ?_, ?_⟩
  · exact classify_zero_of_hasFields (hasFields_signBit h)
  · exact patSign_of_hasFields hS (hasFields_signBit h)
  · exact classify_infinity_of_hasFields hE (hasFields_posInf d)
  · exact patSign_of_hasFields hS (hasFields_posInf d)
  · exact classify_infinity_of_hasFields hE (hasFields_negInf h)
  · exact patSign_of_hasFields hS (hasFields_negInf h)
  · exact patternValue_le_of_le (Nat.le_sub_one_of_lt hp) hmax
  · simpa [patternValue_zero] using patternValue_lt_of_lt Nat.one_pos hone
  · exact patternValue_le_of_le h0 (hp.trans (posInf_lt_signBit d))
  · have hne : 2 ^ d.M - 1 ≠ 0 := Nat.sub_ne_zero_of_lt (one_lt_two_pow_M hM)
    exact classify_nan_of_hasFields hE (hasFields_allOnes hS) hne

/-- Settles O16. -/
theorem patternOrderIsValueOrder : Obligations.PatternOrderIsValueOrder := by
  rintro d p q ⟨-, ⟨hE, -⟩, -, -, -⟩ h
  refine ⟨fun hq => patternValue_lt_of_lt h (hq.trans (posInf_lt_signBit d)), ?_⟩
  rintro rfl
  exact ⟨finitePattern_of_lt_posInf h, classify_infinity_of_hasFields hE (hasFields_posInf d)⟩

end Sys2Proof.Machine

/-! The format descriptor (spec 40): which check reports, what a legal descriptor is, when the bias is in
range, what CHKFMT answers, and what every command answers on an illegal descriptor. -/

/-! ## The descriptor's checks -/

namespace Sys2Proof.Machine

/-! ### The effective bias and its check (spec 40 R84, R85, R94) -/

section bias
variable {f : FmtArgs}

theorem effectiveBias_of_explicit {b : Int} (h : f.bias = some b) : effectiveBias f = b := by
  simp [effectiveBias, h]

theorem effectiveBias_of_default (h : f.bias = none) :
    effectiveBias f = 2 ^ (f.exponentBits - 1) - 1 := by
  simp [effectiveBias, h]

theorem two_pow_exponentBits_sub_one_le (hE8 : f.exponentBits ≤ 8) :
    (2 : Int) ^ (f.exponentBits - 1) ≤ 128 :=
  pow_le_pow_right₀ (by decide) (by omega : f.exponentBits - 1 ≤ 7)

theorem effectiveBias_nonneg_of_default (h : f.bias = none) : 0 ≤ effectiveBias f := by
  rw [effectiveBias_of_default h]
  exact Int.sub_nonneg_of_le (one_le_pow₀ (by decide))

theorem biasInRange_iff :
    biasInRange f = true ↔ effectiveBias f - 1023 ≥ -1023
      ∧ (2 : Int) ^ f.exponentBits - effectiveBias f ≤ 1024 := by
  simp only [biasInRange, Bool.and_eq_true, decide_eq_true_eq]

/-- The upper half of the invariant holds for every non-negative bias, since `2^E` is at most 256. -/
theorem biasInRange_iff_nonneg (hE8 : f.exponentBits ≤ 8) :
    biasInRange f = true ↔ 0 ≤ effectiveBias f := by
  have hpow : (2 : Int) ^ f.exponentBits ≤ 256 := pow_le_pow_right₀ (by decide) hE8
  rw [biasInRange_iff]
  omega

/-- The distance of the default bias from `2^E` (spec 40 R94). -/
theorem two_pow_sub_defaultBias (hE : 1 ≤ f.exponentBits) (h : f.bias = none) :
    (2 : Int) ^ f.exponentBits - effectiveBias f = 2 ^ (f.exponentBits - 1) + 1 := by
  obtain ⟨n, hn⟩ := Nat.exists_eq_add_of_le' hE
  rw [effectiveBias_of_default h, hn, Nat.add_sub_cancel, pow_succ]
  ring

/-- The default biases, one for each number of exponent bits (spec 40 R84). -/
theorem defaultBias_getElem (hE : 1 ≤ f.exponentBits) (hE8 : f.exponentBits ≤ 8)
    (h : f.bias = none) :
    [0, 1, 3, 7, 15, 31, 63, 127][f.exponentBits - 1]? = some (effectiveBias f) := by
  rw [effectiveBias_of_default h]
  interval_cases f.exponentBits <;> rfl

/-- The effective bias fits 12 bits, as an explicit bias does on its port (spec 30 R62). -/
theorem effectiveBias_bounds (hf : f.wf = true) (hE8 : f.exponentBits ≤ 8) :
    -2048 ≤ effectiveBias f ∧ effectiveBias f ≤ 2047 := by
  simp only [FmtArgs.wf, Bool.and_eq_true] at hf
  obtain ⟨⟨-, hbias⟩, -⟩ := hf
  cases hb : f.bias with
  | none =>
    have hnonneg := effectiveBias_nonneg_of_default hb
    have hpow := two_pow_exponentBits_sub_one_le hE8
    have hB := effectiveBias_of_default hb
    omega
  | some b =>
    simp only [hb, biasFits, Bool.and_eq_true, decide_eq_true_eq] at hbias
    rwa [effectiveBias_of_explicit hb]

end bias

/-- Settles O9: for 1 to 8 exponent bits the check is non-negativity of the effective bias, and the default
bias is `2^(E-1) - 1`. -/
theorem biasCheckIsNonNegativity : Obligations.BiasCheckIsNonNegativity := by
  intro f hE hE8
  have hcheck := biasInRange_iff_nonneg hE8
  refine ⟨fun h => ?_, fun b h => ?_, fun b h => ?_⟩
  · have hnonneg := effectiveBias_nonneg_of_default h
    have hdist := two_pow_sub_defaultBias hE h
    have hpow := two_pow_exponentBits_sub_one_le hE8
    exact ⟨hcheck.2 hnonneg, hnonneg, hdist, by rw [hdist]; omega⟩
  · rw [hcheck, effectiveBias_of_explicit h]
  · have hlt := b.toInt_lt
    rw [hcheck, effectiveBias_of_explicit h]
    omega

/-! ### The order of the checks (spec 40 R92) -/

theorem defaultMode_of_illegal {code : Nat} (h : code = 5 ∨ code = 6) : defaultMode code = none := by
  rcases h with rfl | rfl <;> rfl

/-- Settles O7: each check is reached when the ones before it have passed. -/
theorem firstFailingCheckIsReported : Obligations.FirstFailingCheckIsReported := by
  intro f
  refine ⟨fun hS => ?sign, fun hS => ⟨fun hE => ?exponent, fun hE => ⟨fun hM => ?significand, fun hM =>
    ⟨fun hB => ?bias, fun hB hR => ?mode⟩⟩⟩⟩
  case sign => rw [validate, if_pos hS]
  all_goals rw [validate, if_neg (not_not.2 hS)]
  case exponent => rw [if_pos hE]
  all_goals rw [if_neg (show ¬(f.exponentBits < 1 ∨ f.exponentBits > 8) by omega)]
  case significand => rw [if_pos hM]
  all_goals rw [if_neg (show ¬(f.significandBits < 1 ∨ f.significandBits > 23) by omega)]
  case bias => rw [if_pos (mt biasInRange_iff.1 hB)]
  case mode => rw [if_neg (not_not.2 (biasInRange_iff.2 hB)), defaultMode_of_illegal hR]

/-! ### The values of a legal descriptor (spec 40 R87, R88) -/

/-- The code of the mode that a legal code other than 7 stands for (spec 30 R56). -/
theorem modeCode_defaultModeOf {code : Nat} (h : code ≤ 4) : modeCode (defaultModeOf code) = code := by
  interval_cases code <;> rfl

theorem validate_of_not_legal {f : FmtArgs} (h : ¬f.Legal) : ∃ err, validate f = .error err := by
  cases hv : validate f with
  | error err => exact ⟨err, rfl⟩
  | ok d => exact absurd (legal_of_validate hv) h

theorem legal_T_bounds {f : FmtArgs} (h : f.Legal) : 2 ≤ (descOf f).T ∧ (descOf f).T ≤ 32 := by
  obtain ⟨hS, hE, hM, -, -⟩ := h
  show 2 ≤ f.signBits + f.exponentBits + f.significandBits
    ∧ f.signBits + f.exponentBits + f.significandBits ≤ 32
  omega

/-- Settles O8: the descriptor that passes is `descOf f`, whose values are the spec's. -/
theorem legalDescriptorHasItsDerivedValues : Obligations.LegalDescriptorHasItsDerivedValues := by
  refine fun f => ⟨validate_of_not_legal, fun h => ⟨descOf f, validate_of_legal h, rfl, rfl, rfl,
    fun b hb => effectiveBias_of_explicit hb, fun hb => ⟨effectiveBias_of_default hb, ?_⟩,
    modeCode_defaultModeOf, fun hR => ?_, rfl, rfl, rfl, legal_T_bounds h⟩⟩
  · obtain ⟨-, ⟨hE, hE8⟩, -⟩ := h
    exact defaultBias_getElem hE hE8 hb
  · simp [descOf, defaultModeOf, hR]

/-! ## CHKFMT's summary word (spec 40 R91) -/

/-- The layout of the summary word, from bit 63 down to bit 0. -/
def summaryLayout (xr : BitVec 1) (mode : BitVec 3) (delta bias : BitVec 12) (maxE : BitVec 8)
    (total : BitVec 6) : Word64 :=
  0#7 ++ xr ++ 0#5 ++ mode ++ 0#4 ++ delta ++ 0#4 ++ bias ++ maxE ++ 0#2 ++ total

/-- Six words joined by `|||`, in either order. -/
theorem or_reverse (a b c d e f : Word64) :
    a ||| b ||| c ||| d ||| e ||| f = f ||| e ||| d ||| c ||| b ||| a := by
  ac_rfl

section layout
variable (xr : BitVec 1) (mode : BitVec 3) (delta bias : BitVec 12) (maxE : BitVec 8) (total : BitVec 6)

/-- The layout as the model builds it, by shifts into disjoint places. -/
theorem summaryLayout_eq_or :
    summaryLayout xr mode delta bias maxE total
      = total.setWidth 64 ||| maxE.setWidth 64 <<< 8 ||| bias.setWidth 64 <<< 16
        ||| delta.setWidth 64 <<< 32 ||| mode.setWidth 64 <<< 48 ||| xr.setWidth 64 <<< 56 := by
  rw [← BitVec.setWidth_eq (summaryLayout xr mode delta bias maxE total), summaryLayout]
  iterate 10 rw [BitVec.setWidth_append_eq_shiftLeft_setWidth_or]
  simp only [BitVec.setWidth_zero, BitVec.zero_shiftLeft, BitVec.zero_or, BitVec.or_zero,
    BitVec.shiftLeft_or_distrib, ← BitVec.shiftLeft_add, Nat.reduceAdd]
  exact or_reverse _ _ _ _ _ _

/-- Each field is read where it lies: the fields below it are dropped, and it is the lowest of the rest. -/
theorem summaryLayout_fields :
    (summaryLayout xr mode delta bias maxE total).extractLsb' 0 6 = total
    ∧ (summaryLayout xr mode delta bias maxE total).extractLsb' 8 8 = maxE
    ∧ (summaryLayout xr mode delta bias maxE total).extractLsb' 16 12 = bias
    ∧ (summaryLayout xr mode delta bias maxE total).extractLsb' 32 12 = delta
    ∧ (summaryLayout xr mode delta bias maxE total).extractLsb' 48 3 = mode
    ∧ (summaryLayout xr mode delta bias maxE total).extractLsb' 56 1 = xr := by
  rw [summaryLayout]
  refine ⟨?_, ?_, ?_, ?_, ?_, ?_⟩
  all_goals
    repeat rw [BitVec.extractLsb'_append_eq_of_le (by decide)]
    exact BitVec.extractLsb'_append_eq_right

/-- The places of no field are 0: the mask is the layout of all-ones fields. -/
theorem summaryLayout_and_not_mask :
    summaryLayout xr mode delta bias maxE total &&& ~~~0x01070FFF0FFFFF3F#64 = 0#64 := by
  have hmask : ~~~0x01070FFF0FFFFF3F#64 =
      127#7 ++ 0#1 ++ 31#5 ++ 0#3 ++ 15#4 ++ 0#12 ++ 15#4 ++ 0#12 ++ 0#8 ++ 3#2 ++ 0#6 := by decide
  rw [hmask, summaryLayout]
  iterate 10 rw [BitVec.and_append]
  simp only [BitVec.zero_and, BitVec.and_zero]
  rfl

end layout

theorem modeCode_lt (rm : RoundingMode) : modeCode rm < 2 ^ 3 := by
  cases rm <;> decide

/-- The summary word has the layout of spec 40 R91 when each value fits its field. -/
theorem summary_eq_layout {d : Desc} (hT : d.T < 2 ^ 6) (hE : d.maxE < 2 ^ 8) (hB : 0 ≤ d.B)
    (hB' : d.B < 2 ^ 12) :
    summary d = summaryLayout (BitVec.ofBool d.xr) (BitVec.ofNat 3 (modeCode d.RMD))
      (BitVec.ofInt 12 d.delta) (BitVec.ofNat 12 d.B.toNat) (BitVec.ofNat 8 d.maxE)
      (BitVec.ofNat 6 d.T) := by
  have hbias : BitVec.ofInt 64 d.B = BitVec.ofNat 64 d.B.toNat := by
    rw [← BitVec.ofInt_natCast, Int.toNat_of_nonneg hB]
  rw [summaryLayout_eq_or, summary, hbias, BitVec.setWidth_ofNat_of_le_of_lt (by decide) hT,
    BitVec.setWidth_ofNat_of_le_of_lt (by decide) hE,
    BitVec.setWidth_ofNat_of_le_of_lt (by decide) (by omega : d.B.toNat < 2 ^ 12),
    BitVec.setWidth_ofNat_of_le_of_lt (by decide) (modeCode_lt d.RMD)]

/-- Each value that fits its field of the summary word is read back from it (spec 40 R91). -/
theorem summary_fields {d : Desc} (hT : d.T < 2 ^ 6) (hE : d.maxE < 2 ^ 8) (hB : 0 ≤ d.B)
    (hB' : d.B < 2 ^ 12) :
    ((summary d).extractLsb' 0 6).toNat = d.T
    ∧ ((summary d).extractLsb' 8 8).toNat = d.maxE
    ∧ (((summary d).extractLsb' 16 12).toNat : Int) = d.B
    ∧ (((summary d).extractLsb' 32 12).toNat : Int) = d.delta % 2 ^ 12
    ∧ ((summary d).extractLsb' 48 3).toNat = modeCode d.RMD
    ∧ (summary d).getLsbD 56 = d.xr := by
  obtain ⟨rT, rmaxE, rB, rdelta, rmode, rxr⟩ := summaryLayout_fields (BitVec.ofBool d.xr)
    (BitVec.ofNat 3 (modeCode d.RMD)) (BitVec.ofInt 12 d.delta) (BitVec.ofNat 12 d.B.toNat)
    (BitVec.ofNat 8 d.maxE) (BitVec.ofNat 6 d.T)
  rw [summary_eq_layout hT hE hB hB', rT, rmaxE, rB, rdelta, rmode, BitVec.getLsbD_eq_extractLsb', rxr]
  refine ⟨Nat.mod_eq_of_lt hT, Nat.mod_eq_of_lt hE, ?_, ?_, Nat.mod_eq_of_lt (modeCode_lt _), ?_⟩
  · rw [BitVec.toNat_ofNat, Nat.mod_eq_of_lt (by omega), Int.toNat_of_nonneg hB]
  · rw [BitVec.toNat_ofInt, Int.toNat_of_nonneg (Int.emod_nonneg _ (by decide))]
    rfl
  · cases d.xr <;> rfl

/-- The code of a legal default mode as CHKFMT reports it: 7 is reported as 0 (spec 40 R87, R90). -/
theorem modeCode_descOf {f : FmtArgs} (h : f.Legal) :
    modeCode (descOf f).RMD = if f.rmDefault = 7 then 0 else f.rmDefault := by
  obtain ⟨-, -, -, -, hR | hR⟩ := h
  · rw [if_neg (by omega)]
    exact modeCode_defaultModeOf hR
  · rw [if_pos hR, descOf, hR]
    rfl

theorem execChkfmt_of_legal {f : FmtArgs} (h : f.Legal) (s : State) :
    exec (.chkfmt f) s = .next (s.respondOk (summary (descOf f))) :=
  withDescriptor_ok (validate_of_legal h) s _

/-- Settles O10: the values of a legal descriptor fit their fields, so the word has the layout and each
field is read where it lies. -/
theorem chkfmtAnswersWithTheSummary : Obligations.ChkfmtAnswersWithTheSummary := by
  intro f s hf h
  have hT := (legal_T_bounds h).2
  have hmode := modeCode_descOf h
  have hrun := execChkfmt_of_legal h s
  obtain ⟨-, ⟨-, hE8⟩, -, ⟨hB, -⟩, -⟩ := h
  have hmaxE : (descOf f).maxE < 2 ^ 8 := (maxE_lt _).trans_le (Nat.pow_le_pow_right (by decide) hE8)
  have hB0 : 0 ≤ (descOf f).B := show 0 ≤ effectiveBias f by omega
  have hB1 : (descOf f).B ≤ 2047 := (effectiveBias_bounds hf hE8).2
  obtain ⟨rT, rmaxE, rB, rdelta, rmode, rxr⟩ :=
    summary_fields (by omega) hmaxE hB0 (by omega)
  refine ⟨_, hrun, rT, rmaxE, rB, rdelta, rmode.trans hmode, by rw [rxr, xr_descOf], ?_⟩
  rw [summary_eq_layout (by omega) hmaxE hB0 (by omega)]
  exact summaryLayout_and_not_mask _ _ _ _ _ _

/-! ## The InvalidFormat response (spec 40 R93; 60 R181) -/

theorem withExactRange_error {f : FmtArgs} {err : BlockError} (h : validate f = .error err)
    (s : State) (k : Desc → Outcome) : withExactRange f s k = .next (s.raise err) :=
  withDescriptor_error h s _

/-- Every command checks its descriptor first and answers an error with it (spec 40 R80). -/
theorem exec_of_invalid {f : FmtArgs} {x : Word64} {p : PatternWord} {i : Instr} {err : BlockError}
    (h : validate f = .error err) (hi : i ∈ allCommands f x p) (s : State) :
    exec i s = .next (s.raise err) := by
  simp only [allCommands, encCommands, List.mem_cons, List.not_mem_nil, or_false] at hi
  rcases hi with rfl | rfl | rfl | rfl | rfl | rfl | rfl | rfl
  · exact withDescriptor_error h s _
  all_goals exact withExactRange_error h s _

/-- The value reported for a descriptor the ports can carry is one of the other parameters or, once
`exponentBits` has passed, the effective bias. -/
theorem reportedValue_bounds {f : FmtArgs} {param : Nat} {value : Int} (hf : f.wf = true)
    (h : validate f = .error (.invalidFormat param value)) : -2048 ≤ value ∧ value ≤ 2047 := by
  have hbias := effectiveBias_bounds hf
  simp only [FmtArgs.wf, Bool.and_eq_true, decide_eq_true_eq] at hf
  obtain ⟨⟨⟨⟨hS, hE⟩, hM⟩, -⟩, hR⟩ := hf
  unfold validate at h
  split at h
  · cases h; omega
  split at h
  · cases h; omega
  next hE8 =>
  split at h
  · cases h; omega
  split at h
  · cases h; exact hbias (by omega)
  split at h
  · cases h; omega
  · cases h

/-- Settles O11: the record is the parameter below the value, and both fit their fields. -/
theorem invalidDescriptorGivesInvalidFormat : Obligations.InvalidDescriptorGivesInvalidFormat := by
  intro f x p param value i s hf hv hi
  obtain ⟨_, _, herr, hlo, hhi⟩ := validate_error_cases hv
  cases herr
  obtain ⟨hmin, hmax⟩ := reportedValue_bounds hf hv
  refine ⟨_, exec_of_invalid hv hi s, hlo, hhi, ?_, ?_⟩
  · rw [BitVec.extractLsb'_append_eq_right]
    exact Nat.mod_eq_of_lt (by omega)
  · rw [BitVec.extractLsb'_append_eq_left]
    exact BitVec.toInt_ofInt_eq_self (by decide) (by omega) (by omega)

end Sys2Proof.Machine

/-! The decoder (spec 41): the fields and the class of a pattern, the word of each class, the value of the
word, and what ENC gives back for it. -/

namespace Sys2Proof.Machine

/-! ## A pattern and its fields (spec 30 R64, R65) -/

theorem patFrac_lt (d : Desc) (p : Nat) : patFrac d p < 2 ^ d.M :=
  Nat.mod_lt _ (Nat.two_pow_pos _)

theorem patExp_lt (d : Desc) (p : Nat) : patExp d p < 2 ^ d.E :=
  Nat.mod_lt _ (Nat.two_pow_pos _)

theorem patExp_le_maxE (d : Desc) (p : Nat) : patExp d p ≤ d.maxE :=
  Nat.le_sub_one_of_lt (patExp_lt d p)

/-- A pattern of an unsigned format has the sign 0 (spec 30 R64). -/
theorem patSign_of_unsigned {d : Desc} (p : Nat) (h : d.S = 0) : patSign d p = false := by
  simp [patSign, h]

/-- The bits from `E + M` up are the sign's. -/
theorem div_signBit_of_lt {d : Desc} {p : Nat} (hS : d.S ≤ 1) (hp : p < 2 ^ d.T) :
    p / d.signBit = if patSign d p then 1 else 0 := by
  obtain hz | hone : d.S = 0 ∨ d.S = 1 := by omega
  · rw [two_pow_T_of_unsigned hz] at hp
    simp [patSign, hz, Nat.div_eq_of_lt hp]
  · rw [two_pow_T_of_signed hone] at hp
    have hlt : p / d.signBit < 2 := Nat.div_lt_of_lt_mul (by omega)
    have hbit : patSign d p = decide (p / d.signBit % 2 = 1) := by
      rw [patSign, decide_eq_true hone, Bool.true_and, Nat.testBit_eq_decide_div_mod_eq, Desc.signBit]
    rw [hbit]
    generalize p / d.signBit = q at hlt ⊢
    interval_cases q <;> rfl

/-- A pattern has the fields that are read from it. -/
theorem hasFields_of_lt {d : Desc} {p : Nat} (hS : d.S ≤ 1) (hp : p < 2 ^ d.T) :
    HasFields d p (patSign d p) (patExp d p) (patFrac d p) := by
  refine ⟨?_, patExp_lt d p, patFrac_lt d p, patSign_of_unsigned p⟩
  have hhigh : p / 2 ^ d.M / 2 ^ d.E = if patSign d p then 1 else 0 := by
    rw [Nat.div_div_eq_div_mul, ← pow_add, Nat.add_comm, ← Desc.signBit, div_signBit_of_lt hS hp]
  rw [patternFrom_eq, ← hhigh, patExp, Nat.div_add_mod', patFrac, Nat.div_add_mod']

theorem patternOf_lt (d : Desc) (w : PatternWord) : patternOf d w < 2 ^ d.T :=
  Nat.mod_lt _ (Nat.two_pow_pos _)

/-- Everything `classify` can answer, and for which fields (spec 41 R109). -/
theorem classify_cases (d : Desc) (p : Nat) :
    (classify d p = .zero ∧ patExp d p = 0 ∧ patFrac d p = 0)
      ∨ (classify d p = .subnormal ∧ patExp d p = 0 ∧ patFrac d p ≠ 0)
      ∨ (classify d p = .infinity ∧ patExp d p = d.maxE ∧ patFrac d p = 0)
      ∨ (classify d p = .nan ∧ patExp d p = d.maxE ∧ patFrac d p ≠ 0)
      ∨ (classify d p = .normal ∧ 0 < patExp d p ∧ patExp d p < d.maxE) := by
  have hle := patExp_le_maxE d p
  by_cases h0 : patExp d p = 0
  · by_cases hf : patFrac d p = 0
    · exact .inl ⟨by simp [classify, h0, hf], h0, hf⟩
    · exact .inr (.inl ⟨by simp [classify, h0, hf], h0, hf⟩)
  by_cases hm : patExp d p = d.maxE
  · by_cases hf : patFrac d p = 0
    · exact .inr (.inr (.inl ⟨by rw [classify, if_neg h0, if_pos hm, if_pos hf], hm, hf⟩))
    · exact .inr (.inr (.inr (.inl ⟨by rw [classify, if_neg h0, if_pos hm, if_neg hf], hm, hf⟩)))
  · exact .inr (.inr (.inr (.inr ⟨by rw [classify, if_neg h0, if_neg hm], by omega, by omega⟩)))

theorem classify_subnormal_of_hasFields {d : Desc} {p : Nat} {sg : Bool} {mf : Nat}
    (h : HasFields d p sg 0 mf) (hmf : mf ≠ 0) : classify d p = .subnormal := by
  simp [classify, patExp_of_hasFields h, patFrac_of_hasFields h, hmf]

theorem classify_normal_of_hasFields {d : Desc} {p : Nat} {sg : Bool} {ef mf : Nat}
    (h : HasFields d p sg ef mf) (h0 : 0 < ef) (hlt : ef < d.maxE) : classify d p = .normal := by
  simp [classify, patExp_of_hasFields h, h0.ne', hlt.ne]

/-! ## What DEC answers (spec 41 R108) -/

theorem inXR_descOf {f : FmtArgs} (h : f.Exact) : (descOf f).InXR :=
  inXR_of_validate (validate_of_legal h.1) ((xr_descOf f).2 h.2)

section decodePattern
variable {d : Desc} {p : Nat} (nanFrac : Fraction)

theorem decodePattern_of_zero (h : classify d p = .zero) :
    decodePattern d p nanFrac = f64 (patSign d p) 0 0#52 := by
  simp only [decodePattern, h]

theorem decodePattern_of_subnormal (h : classify d p = .subnormal) :
    decodePattern d p nanFrac = decodeSubnormal d (patSign d p) (patFrac d p) := by
  simp only [decodePattern, h]

theorem decodePattern_of_infinity (h : classify d p = .infinity) :
    decodePattern d p nanFrac = f64 (patSign d p) 2047 0#52 := by
  simp only [decodePattern, h, Config.nativeMaxExponent]

theorem decodePattern_of_nan (h : classify d p = .nan) :
    decodePattern d p nanFrac = f64 (patSign d p) 2047 nanFrac := by
  simp only [decodePattern, h, Config.nativeMaxExponent]

theorem decodePattern_of_normal (h : classify d p = .normal) :
    decodePattern d p nanFrac = decodeNormal d (patSign d p) (patExp d p) (patFrac d p) := by
  simp only [decodePattern, h]

/-- The draw is read for a NaN only (spec 41 R106). -/
theorem decodePattern_of_ne_nan (h : classify d p ≠ .nan) :
    decodePattern d p nanFrac = decodePattern d p 0#52 := by
  cases hc : classify d p with
  | nan => exact absurd hc h
  | zero | subnormal | normal | infinity => simp only [decodePattern, hc]

end decodePattern

section execDec
variable {f : FmtArgs} {w : PatternWord} (h : f.Exact) (s : State)
include h

/-- DEC completes on a legal descriptor in XR; besides its response only the count of draws may change. -/
theorem execDec_of_exact :
    exec (.dec f w) s
      = .next { s.respond ⟨0#2, decodePattern (descOf f) (patternOf (descOf f) w)
            (drawnFraction s.nanDraws f w)⟩ with
          nanDraws := (s.afterDecoding (classify (descOf f) (patternOf (descOf f) w))).nanDraws } := by
  rw [← respond_afterDecoding]
  exact withExactRange_of_exact h s _

/-- On a pattern that is no NaN, the word depends on the pattern alone and no draw is used up. -/
theorem execDec_of_ne_nan (hn : classify (descOf f) (patternOf (descOf f) w) ≠ .nan) :
    exec (.dec f w) s
      = .next (s.respond ⟨0#2, decodePattern (descOf f) (patternOf (descOf f) w) 0#52⟩) := by
  rw [execDec_of_exact h, State.afterDecoding_of_ne_nan _ _ hn, decodePattern_of_ne_nan _ hn]
  rfl

end execDec

/-- Settles O17: DEC of this class is the zero of the sign that is read. -/
theorem decOfZero : Obligations.DecOfZero := by
  intro f w sg s h (hp : HasFields (descOf f) (patternOf (descOf f) w) sg 0 0)
  obtain ⟨hS, -⟩ := inXR_descOf h
  have hc := classify_zero_of_hasFields hp
  rw [execDec_of_ne_nan h s (by simp [hc]), decodePattern_of_zero _ hc, patSign_of_hasFields hS hp]
  rfl

/-- Settles O19: DEC of this class is the infinity of the sign that is read, which is 0 when unsigned. -/
theorem decOfInfinity : Obligations.DecOfInfinity := by
  intro f w sg s h (hp : HasFields (descOf f) (patternOf (descOf f) w) sg (descOf f).maxE 0)
  obtain ⟨hS, ⟨hE, -⟩, -⟩ := inXR_descOf h
  have hc := classify_infinity_of_hasFields hE hp
  have hsg : f.signBits = 0 → sg = false := by
    obtain ⟨-, -, -, hsg⟩ := hp
    exact hsg
  refine ⟨hsg, ?_⟩
  rw [execDec_of_ne_nan h s (by simp [hc]), decodePattern_of_infinity _ hc, patSign_of_hasFields hS hp]
  rfl

/-- Settles O20: the fraction is the draw's, and a draw is never 0. -/
theorem decOfNan : Obligations.DecOfNan := by
  intro f w sg mf s h (hp : HasFields (descOf f) (patternOf (descOf f) w) sg (descOf f).maxE mf) hmf
  obtain ⟨hS, ⟨hE, -⟩, -⟩ := inXR_descOf h
  have hc := classify_nan_of_hasFields hE hp hmf
  refine ⟨_, drawnFraction_ne_zero s.nanDraws f w, ?_⟩
  rw [execDec_of_exact h s, hc, decodePattern_of_nan _ hc, patSign_of_hasFields hS hp]
  rfl

/-- A pattern of at most 32 bits is read from `a` itself as from DEC's operand `a[31:0]` (spec 30 R63). -/
theorem patternOf_decOperand {d : Desc} (hT : d.T ≤ 32) (a : Word64) :
    patternOf d (decOperand a) = a.toNat % 2 ^ d.T := by
  rw [patternOf, decOperand, BitVec.extractLsb'_toNat, Nat.shiftRight_zero,
    Nat.mod_mod_of_dvd _ (pow_dvd_pow 2 hT)]

/-- Settles O22: a pattern has at most 32 bits, so the two operands give the same pattern. -/
theorem decIgnoresTheBitsAboveT : Obligations.DecIgnoresTheBitsAboveT := by
  intro fmt a a' h heq hn
  obtain ⟨-, hT⟩ := legal_T_bounds h.1
  have hp := patternOf_decOperand hT a
  have hp' := (patternOf_decOperand hT a').trans heq.symm
  refine ⟨_, _, decodePattern (descOf fmt.read) (a.toNat % 2 ^ (descOf fmt.read).T) 0#52,
    decode_dec a fmt, decode_dec a' fmt, fun s => ⟨?_, ?_⟩⟩
  · rw [execDec_of_ne_nan h s (by rwa [hp]), hp]
    rfl
  · rw [execDec_of_ne_nan h s (by rwa [hp']), hp']
    rfl

/-! ## The words of the nonzero finite patterns (spec 41 R104, R107) -/

/-! ### The significand's place -/

section significand
variable {d : Desc} {x : Nat}

theorem two_pow_M_mul_two_pow_sh (hM : d.M ≤ 52) : 2 ^ d.M * 2 ^ d.sh = 2 ^ 52 := by
  rw [← pow_add, Desc.sh, Config.nativeFractionBits, Nat.add_sub_cancel' hM]

/-- A significand field, shifted to the top of the fraction, fits it. -/
theorem toNat_leftJustified (hM : d.M ≤ 52) (hx : x < 2 ^ d.M) :
    (BitVec.ofNat 52 (x * 2 ^ d.sh)).toNat = x * 2 ^ d.sh := by
  rw [BitVec.toNat_ofNat, ← two_pow_M_mul_two_pow_sh hM, Nat.mod_eq_of_lt]
  exact Nat.mul_lt_mul_of_pos_right hx (Nat.two_pow_pos _)

end significand

/-! ### Classes and values of a word by its fields (spec 30 R70) -/

section f64
variable (sg : Bool) (fr : Fraction) {n : Nat}

theorem f64IsFinite_f64 (h : n < 2047) : f64IsFinite (f64 sg n fr) = true := by
  rw [f64IsFinite, f64Exp_f64 sg fr (by omega)]
  exact decide_eq_true h

theorem f64IsInf_f64 : f64IsInf (f64 sg 2047 0#52) = true := by
  simp [f64IsInf, Config.nativeMaxExponent]

theorem f64IsNaN_f64_of_lt (h : n < 2047) : f64IsNaN (f64 sg n fr) = false := by
  rw [f64IsNaN, f64Exp_f64 sg fr (by omega), Config.nativeMaxExponent, decide_eq_false (by omega),
    Bool.false_and]

theorem f64IsNaN_f64_of_frac_zero : f64IsNaN (f64 sg n 0#52) = false := by
  simp [f64IsNaN]

/-- The value of a normal word whose fraction is a left-justified significand field. -/
theorem f64Value_leftJustified {d : Desc} {x : Nat} (hM : d.M ≤ 52) (hx : x < 2 ^ d.M) (h0 : n ≠ 0)
    (hn : n < 2048) :
    f64Value (f64 sg n (BitVec.ofNat 52 (x * 2 ^ d.sh)))
      = signFactor sg * (2 ^ d.M + x) * 2 ^ ((n : ℤ) - 1023 - d.M) := by
  have hsh : (d.sh : ℤ) = 52 - d.M := by
    rw [Desc.sh, Config.nativeFractionBits]
    omega
  have hexp : (2 : ℚ) ^ ((n : ℤ) - 1023 - d.M) = 2 ^ d.sh * 2 ^ ((n : ℤ) - 1075) := by
    rw [← zpow_natCast, ← zpow_add₀ two_ne_zero]
    congr 1
    omega
  have hone : (2 : ℚ) ^ 52 = 2 ^ d.M * 2 ^ d.sh := by
    exact_mod_cast (two_pow_M_mul_two_pow_sh hM).symm
  rw [f64Value, f64Exp_f64 _ _ hn, if_neg h0, f64Sign_f64, f64Frac_f64, toNat_leftJustified hM hx,
    hexp, hone]
  push_cast
  ring

end f64

/-! ### The normalization of a subnormal (spec 41 R102, R104) -/

section subnormalShift
variable {d : Desc} {mf : Nat} (h0 : mf ≠ 0) (hmf : mf < 2 ^ d.M)
include h0 hmf

theorem log2_add_subnormalShift : Nat.log2 mf + subnormalShift d mf = d.M :=
  Nat.add_sub_cancel' ((Nat.log2_lt h0).2 hmf).le

theorem subnormalShift_bounds : 1 ≤ subnormalShift d mf ∧ subnormalShift d mf ≤ d.M :=
  ⟨Nat.sub_pos_of_lt ((Nat.log2_lt h0).2 hmf), Nat.sub_le _ _⟩

/-- The shift brings the highest set bit to the implicit place. -/
theorem two_pow_M_add_normalized :
    2 ^ d.M + mf * 2 ^ subnormalShift d mf % 2 ^ d.M = mf * 2 ^ subnormalShift d mf := by
  have hpow : 2 ^ d.M = 2 ^ Nat.log2 mf * 2 ^ subnormalShift d mf := by
    rw [← pow_add, log2_add_subnormalShift h0 hmf]
  have hlo : 2 ^ d.M ≤ mf * 2 ^ subnormalShift d mf := by
    rw [hpow]
    exact Nat.mul_le_mul_right _ (Nat.log2_self_le h0)
  have hhi : mf * 2 ^ subnormalShift d mf < 2 * 2 ^ d.M := by
    rw [hpow, ← Nat.mul_assoc, ← pow_succ']
    exact Nat.mul_lt_mul_of_pos_right Nat.lt_log2_self (Nat.two_pow_pos _)
  rw [Nat.mod_eq_sub_mod hlo, Nat.mod_eq_of_lt (by omega)]
  omega

end subnormalShift

theorem log2_mul_two_pow {n : Nat} (h : n ≠ 0) (k : Nat) : Nat.log2 (n * 2 ^ k) = Nat.log2 n + k := by
  rw [Nat.log2_eq_iff (Nat.mul_ne_zero h (Nat.two_pow_pos k).ne'), pow_add, Nat.add_right_comm, pow_add]
  exact ⟨Nat.mul_le_mul_right _ (Nat.log2_self_le h),
    Nat.mul_lt_mul_of_pos_right Nat.lt_log2_self (Nat.two_pow_pos k)⟩

/-- The leading zeros of a nonzero word that fits 32 bits (spec 00 R10). -/
theorem clz32_ofNat {n : Nat} (h : n ≠ 0) (hlt : n < 2 ^ 32) :
    clz32 (BitVec.ofNat 32 n) = 31 - Nat.log2 n := by
  have hn : (BitVec.ofNat 32 n).toNat = n := Nat.mod_eq_of_lt hlt
  rw [clz32, hn, if_neg]
  intro hz
  rw [hz] at hn
  exact h hn.symm

/-- Settles O25: left-justifying raises the index of the highest set bit by `32 - M`. -/
theorem subnormalShiftIsTheLeadingZeroCount : Obligations.SubnormalShiftIsTheLeadingZeroCount := by
  intro d mf hM hM23 hpos hmf
  have hne : mf ≠ 0 := hpos.ne'
  have hlog := (Nat.log2_lt hne).2 hmf
  have hword : mf * 2 ^ (32 - d.M) < 2 ^ 32 := by
    calc mf * 2 ^ (32 - d.M)
      _ < 2 ^ d.M * 2 ^ (32 - d.M) := Nat.mul_lt_mul_of_pos_right hmf (Nat.two_pow_pos _)
      _ = 2 ^ 32 := by rw [← pow_add, Nat.add_sub_cancel' (by omega)]
  refine ⟨?_, subnormalShift_bounds hne hmf⟩
  rw [clz32_ofNat (Nat.mul_ne_zero hne (Nat.two_pow_pos _).ne') hword, log2_mul_two_pow hne,
    subnormalShift]
  omega

/-! ### The two words -/

section words
variable {d : Desc} (hd : d.InXR) (sg : Bool)
include hd

section normal
variable {ef : Nat} (mf : Nat) (h0 : 0 < ef) (hlt : ef < d.maxE)
include h0 hlt

/-- The word of a normal pattern, with its exponent field as an integer and in range (spec 41 R107). -/
theorem decodeNormal_eq :
    ∃ n : Nat, (n : Int) = ef - d.delta ∧ 2 ≤ n ∧ n ≤ 1277
      ∧ decodeNormal d sg ef mf = f64 sg n (BitVec.ofNat 52 (mf * 2 ^ d.sh)) := by
  obtain ⟨-, ⟨-, hE⟩, ⟨hM, -⟩, hB, hxr⟩ := hd
  have hmax := maxE_le_255 hE
  have hdelta : d.delta = d.B - 1023 := rfl
  refine ⟨((ef : Int) - d.delta).toNat, Int.toNat_of_nonneg (by omega), by omega, by omega, ?_⟩
  rw [decodeNormal, Nat.shiftLeft_eq]
  rfl

/-- The word of a normal pattern is normal, with the pattern's sign. -/
theorem decodeNormal_fields :
    f64IsFinite (decodeNormal d sg ef mf) = true ∧ f64Sign (decodeNormal d sg ef mf) = sg
      ∧ f64Exp (decodeNormal d sg ef mf) ≠ 0 := by
  obtain ⟨n, -, hn2, hn1277, hword⟩ := decodeNormal_eq hd sg mf h0 hlt
  rw [hword, f64Exp_f64 _ _ (by omega)]
  exact ⟨f64IsFinite_f64 _ _ (by omega), f64Sign_f64 _ _ _, by omega⟩

end normal

section subnormal
variable {mf : Nat} (hmf : mf < 2 ^ d.M) (h0 : mf ≠ 0)
include hmf h0

/-- The word of a subnormal pattern, with its exponent field as an integer and in range (spec 41 R104). -/
theorem decodeSubnormal_eq :
    ∃ n : Nat, (n : Int) = 1 - subnormalShift d mf - d.delta ∧ 2 ≤ n ∧ n ≤ 1023
      ∧ decodeSubnormal d sg mf
        = f64 sg n (BitVec.ofNat 52 (mf * 2 ^ subnormalShift d mf % 2 ^ d.M * 2 ^ d.sh)) := by
  obtain ⟨-, -, -, hB, hxr⟩ := hd
  obtain ⟨hz1, hzM⟩ := subnormalShift_bounds h0 hmf
  have hdelta : d.delta = d.B - 1023 := rfl
  refine ⟨(1 - (subnormalShift d mf : Int) - d.delta).toNat, Int.toNat_of_nonneg (by omega), by omega,
    by omega, ?_⟩
  rw [decodeSubnormal, Nat.shiftLeft_eq, Nat.shiftLeft_eq]
  rfl

/-- The word of a subnormal pattern is normal, with the pattern's sign. -/
theorem decodeSubnormal_fields :
    f64IsFinite (decodeSubnormal d sg mf) = true ∧ f64Sign (decodeSubnormal d sg mf) = sg
      ∧ f64Exp (decodeSubnormal d sg mf) ≠ 0 := by
  obtain ⟨n, -, hn2, hn1023, hword⟩ := decodeSubnormal_eq hd sg hmf h0
  rw [hword, f64Exp_f64 _ _ (by omega)]
  exact ⟨f64IsFinite_f64 _ _ (by omega), f64Sign_f64 _ _ _, by omega⟩

end subnormal

end words

/-- Settles O21: the exponent field is rebiased within its range. -/
theorem decOfNormal : Obligations.DecOfNormal := by
  intro f w sg ef mf s h (hp : HasFields (descOf f) (patternOf (descOf f) w) sg ef mf) h0 hlt
  have hd := inXR_descOf h
  have hc := classify_normal_of_hasFields hp h0 hlt
  obtain ⟨n, hn, hn2, hn1277, hword⟩ := decodeNormal_eq hd sg mf h0 hlt
  obtain ⟨hS, -⟩ := hd
  refine ⟨n, hn, hn2, hn1277, ?_⟩
  rw [execDec_of_ne_nan h s (by simp [hc]), decodePattern_of_normal _ hc, patSign_of_hasFields hS hp,
    patExp_of_hasFields hp, patFrac_of_hasFields hp, hword]
  rfl

/-- Settles O18: `h` is `log2 mf`, so the shift is the model's. -/
theorem decOfSubnormal : Obligations.DecOfSubnormal := by
  intro f w sg mf h s hf (hp : HasFields (descOf f) (patternOf (descOf f) w) sg 0 mf) hlo hhi
  have hd := inXR_descOf hf
  have hmf : mf < 2 ^ (descOf f).M := by
    obtain ⟨-, -, hmf, -⟩ := hp
    exact hmf
  have hpos : 0 < mf := (Nat.two_pow_pos h).trans_le hlo
  have hne : mf ≠ 0 := hpos.ne'
  have hc := classify_subnormal_of_hasFields hp hne
  obtain rfl : Nat.log2 mf = h := (Nat.log2_eq_iff hne).2 ⟨hlo, hhi⟩
  obtain ⟨n, hn, hn2, hn1023, hword⟩ := decodeSubnormal_eq hd sg hmf hne
  have hlog : Nat.log2 mf < f.significandBits := (Nat.log2_lt hne).2 hmf
  have hdelta : (descOf f).delta = effectiveBias f - 1023 := rfl
  obtain ⟨hS, -, ⟨hM, hM23⟩, -⟩ := hd
  obtain ⟨hclz, -⟩ := subnormalShiftIsTheLeadingZeroCount (descOf f) mf hM hM23 hpos hmf
  have hn' : (n : Int) = 1 - ((f.significandBits - Nat.log2 mf : Nat) : Int) - (descOf f).delta := hn
  refine ⟨n, by omega, hclz, hn', by omega, hn2, hn1023, ?_⟩
  rw [execDec_of_ne_nan hf s (by simp [hc]), decodePattern_of_subnormal _ hc,
    patSign_of_hasFields hS hp, patFrac_of_hasFields hp, hword]
  rfl

/-! ## DEC is exact (spec 41 R110, R111) -/

section values
variable {d : Desc} (hd : d.InXR) (sg : Bool) {ef mf : Nat} (hmf : mf < 2 ^ d.M)
include hd hmf

theorem f64Value_decodeNormal (h0 : 0 < ef) (hlt : ef < d.maxE) :
    f64Value (decodeNormal d sg ef mf)
      = signFactor sg * (2 ^ d.M + mf) * 2 ^ ((ef : ℤ) - d.B - d.M) := by
  obtain ⟨n, hn, hn2, hn1277, hword⟩ := decodeNormal_eq hd sg mf h0 hlt
  obtain ⟨-, -, ⟨-, hM⟩, -⟩ := hd
  have hdelta : d.delta = d.B - 1023 := rfl
  rw [hword, f64Value_leftJustified sg (by omega) hmf (by omega) (by omega),
    show (n : ℤ) - 1023 - d.M = ef - d.B - d.M by omega]

/-- The shift multiplies the significand by `2^z`, and the exponent takes it back. -/
theorem f64Value_decodeSubnormal (h0 : mf ≠ 0) :
    f64Value (decodeSubnormal d sg mf) = signFactor sg * mf * 2 ^ (1 - d.B - d.M) := by
  obtain ⟨n, hn, hn2, hn1023, hword⟩ := decodeSubnormal_eq hd sg hmf h0
  obtain ⟨-, -, ⟨-, hM⟩, -⟩ := hd
  have hdelta : d.delta = d.B - 1023 := rfl
  have hsig : (2 : ℚ) ^ d.M + (mf * 2 ^ subnormalShift d mf % 2 ^ d.M : Nat)
      = mf * 2 ^ subnormalShift d mf := by
    exact_mod_cast two_pow_M_add_normalized h0 hmf
  have hexp : (2 : ℚ) ^ (1 - d.B - d.M)
      = 2 ^ subnormalShift d mf * 2 ^ ((n : ℤ) - 1023 - d.M) := by
    rw [← zpow_natCast, ← zpow_add₀ two_ne_zero]
    congr 1
    omega
  rw [hword, f64Value_leftJustified sg (by omega) (Nat.mod_lt _ (Nat.two_pow_pos _)) (by omega)
    (by omega), hsig, hexp]
  ring

end values

/-- The word of a finite pattern is finite, and has the pattern's sign and value (spec 41 R110). -/
theorem decodePattern_exact {d : Desc} (hd : d.InXR) {p : Nat} (hp : FinitePattern d p)
    (nanFrac : Fraction) :
    f64IsFinite (decodePattern d p nanFrac) = true
      ∧ f64Sign (decodePattern d p nanFrac) = patSign d p
      ∧ f64Value (decodePattern d p nanFrac) = patternValue d p := by
  have hmf := patFrac_lt d p
  rcases classify_cases d p with ⟨hc, he, hf⟩ | ⟨hc, he, hf⟩ | ⟨hc, -⟩ | ⟨hc, -⟩ | ⟨hc, h0, hlt⟩
  · rw [decodePattern_of_zero _ hc]
    exact ⟨f64IsFinite_f64 _ _ (by decide), f64Sign_f64 _ _ _,
      by simp [f64Value, patternValue, he, hf]⟩
  · obtain ⟨hfin, hsign, -⟩ := decodeSubnormal_fields hd (patSign d p) hmf hf
    rw [decodePattern_of_subnormal _ hc, patternValue, if_pos he]
    exact ⟨hfin, hsign, f64Value_decodeSubnormal hd _ hmf hf⟩
  · simp [FinitePattern, hc] at hp
  · simp [FinitePattern, hc] at hp
  · obtain ⟨hfin, hsign, -⟩ := decodeNormal_fields hd (patSign d p) (patFrac d p) h0 hlt
    rw [decodePattern_of_normal _ hc, patternValue, if_neg h0.ne']
    exact ⟨hfin, hsign, f64Value_decodeNormal hd _ hmf h0 hlt⟩

/-- Settles O23: no finite pattern and no infinity is a NaN, so the word is the pattern's own. -/
theorem decIsExact : Obligations.DecIsExact := by
  intro f w s h
  refine ⟨fun hp => ?_, fun hc => ?_⟩
  · have hn : classify (descOf f) (patternOf (descOf f) w) ≠ .nan := by
      rcases hp with hc | hc | hc <;> rw [patternOf, hc] <;> nofun
    exact ⟨_, execDec_of_ne_nan h s hn, decodePattern_exact (inXR_descOf h) hp _⟩
  · have hn : classify (descOf f) (patternOf (descOf f) w) ≠ .nan := by
      rw [patternOf, hc]; nofun
    refine ⟨_, execDec_of_ne_nan h s hn, ?_⟩
    rw [decodePattern_of_infinity _ (show classify _ (patternOf _ w) = _ from hc)]
    exact ⟨f64IsInf_f64 _, f64Sign_f64 _ _ _⟩

/-- A word with exponent field 0 comes from a zero only, and is a zero (spec 41 R111). -/
theorem decodePattern_exp_eq_zero {d : Desc} (hd : d.InXR) {p : Nat} {nanFrac : Fraction}
    (h : f64Exp (decodePattern d p nanFrac) = 0) :
    f64Frac (decodePattern d p nanFrac) = 0 ∧ classify d p = .zero := by
  have hmf := patFrac_lt d p
  rcases classify_cases d p with ⟨hc, -, -⟩ | ⟨hc, -, hf⟩ | ⟨hc, -⟩ | ⟨hc, -⟩ | ⟨hc, h0, hlt⟩
  · rw [decodePattern_of_zero _ hc, f64Frac_f64]
    exact ⟨rfl, hc⟩
  · rw [decodePattern_of_subnormal _ hc] at h
    obtain ⟨-, -, hne⟩ := decodeSubnormal_fields hd (patSign d p) hmf hf
    exact absurd h hne
  · simp [decodePattern_of_infinity _ hc] at h
  · simp [decodePattern_of_nan _ hc] at h
  · rw [decodePattern_of_normal _ hc] at h
    obtain ⟨-, -, hne⟩ := decodeNormal_fields hd (patSign d p) (patFrac d p) h0 hlt
    exact absurd h hne

/-- Settles O24: of the five kinds of words only the zero has exponent field 0. -/
theorem decGivesNoSubnormal : Obligations.DecGivesNoSubnormal := fun _ _ s h =>
  ⟨_, _, execDec_of_exact h s, decodePattern_exp_eq_zero (inXR_descOf h)⟩

/-! ## ENC of DEC (spec 41 R112) -/

/-- Each of the six ENC commands completes on a legal descriptor in XR with the pattern of some mode. -/
theorem exec_encCommand_of_exact {f : FmtArgs} {x : Word64} {i : Instr} (h : f.Exact)
    (hi : i ∈ encCommands f x) :
    ∃ rm, ∀ s, exec i s = .next (s.respondOk (BitVec.ofNat 64 (encodeF64 (descOf f) rm x))) := by
  simp only [encCommands, List.mem_cons, List.not_mem_nil, or_false] at hi
  rcases hi with rfl | rfl | rfl | rfl | rfl | rfl
  all_goals exact ⟨_, fun s => withExactRange_of_exact h s _⟩

/-! ### Rounding and packing an exact mantissa -/

theorem retained_mul_two_pow (x sh : Nat) : retained (x * 2 ^ sh) sh = x :=
  Nat.mul_div_cancel x (Nat.two_pow_pos sh)

theorem dropped_mul_two_pow (x sh : Nat) : dropped (x * 2 ^ sh) sh = 0 :=
  Nat.mul_mod_left x (2 ^ sh)

/-- No strategy increments when nothing is dropped (spec 43 R150 to R154). -/
theorem increment_of_dropped_zero (rm : RoundingMode) {mant sh : Nat} (s0 : Bool)
    (h : dropped mant sh = 0) : increment rm mant sh s0 = 0 := by
  have hany : anyDropped mant sh = false := by simp [anyDropped, h]
  have hround : roundBit mant sh = false := by simp [roundBit, h]
  cases rm <;>
    simp [increment, incNearestEven, incNearestAway, incTruncate, incCeiling, incFloor, hany, hround]

/-- On an exact mantissa the unit applies the overflow policy only. -/
theorem roundingUnit_exact {d : Desc} (rm : RoundingMode) {s0 : Bool} (e0 e : Nat) {mf : Nat}
    (hmf : mf < 2 ^ d.M) (hs : d.S = 0 → s0 = false) :
    roundingUnit d rm (mf * 2 ^ d.sh) s0 e0 e
      = { inc := 0, eCarried := e, rCarried := mf, e := (overflow d rm s0 e0 e mf).1,
          r := (overflow d rm s0 e0 e mf).2, saturated := none } := by
  have hinc := increment_of_dropped_zero rm s0 (dropped_mul_two_pow mf d.sh)
  have hcarry : carry d e mf = (e, mf) := if_neg hmf.ne
  have hsat : ¬(d.S = 0 ∧ s0 = true) := by
    rintro ⟨hS, h1⟩
    rw [hs hS] at h1
    cases h1
  simp only [roundingUnit, hinc, retained_mul_two_pow, Nat.add_zero, hcarry, if_neg hsat]

/-- Packing puts the fields side by side (spec 42 R134; 30 R64). -/
theorem pack_eq_patternFrom {d : Desc} (hS : d.S ≤ 1) {s0 : Bool} {e r : Nat} (he : e < 2 ^ d.E)
    (hr : r < 2 ^ d.M) (hs : d.S = 0 → s0 = false) : pack d s0 e r = patternFrom d s0 e r := by
  have hsign : (d.S = 1 ∧ s0 = true) ↔ s0 = true := by
    refine ⟨And.right, fun h => ⟨?_, h⟩⟩
    have hne : d.S ≠ 0 := fun h0 => by simp [hs h0] at h
    omega
  rw [pack, if_congr hsign rfl rfl, ← Nat.shiftLeft_add_eq_or_of_lt he,
    ← Nat.shiftLeft_add_eq_or_of_lt hr, Nat.shiftLeft_eq, Nat.shiftLeft_eq, patternFrom_eq]

/-- A word whose alignment drops no bit encodes to its sign and the fields that the overflow policy
leaves. -/
theorem encodeF64_of_align {d : Desc} (hS : d.S ≤ 1) {rm : RoundingMode} {a : Word64} {e ef mf : Nat}
    (hnan : f64IsNaN a = false) (halign : align d (f64Exp a) (f64Frac a) = (mf * 2 ^ d.sh, e))
    (hover : overflow d rm (f64Sign a) (f64Exp a) e mf = (ef, mf)) (hef : ef < 2 ^ d.E)
    (hmf : mf < 2 ^ d.M) (hs : d.S = 0 → f64Sign a = false) :
    encodeF64 d rm a = patternFrom d (f64Sign a) ef mf := by
  rw [encodeF64, hnan, if_neg Bool.false_ne_true]
  simp only [halign, roundingUnit_exact rm _ _ hmf hs, hover]
  exact pack_eq_patternFrom hS hef hmf hs

/-! ### The alignment of the decoded words (spec 42 R126, R128) -/

/-- A shift that takes back a multiplication leaves no sticky bit. -/
theorem shiftSticky_mul_two_pow (x k : Nat) : shiftSticky (x * 2 ^ k) k = x := by
  rw [shiftSticky, Nat.shiftRight_eq_div_pow, Nat.mul_div_cancel x (Nat.two_pow_pos k),
    Nat.mul_mod_left, if_neg (fun h => h rfl), Nat.or_zero]

section align
variable {d : Desc} {n : Nat} (m0 : Nat)

theorem align_of_rebias_pos {e : Nat} (he : e ≠ 0) (h : rebias d n = e) : align d n m0 = (m0, e) := by
  rw [align, h, if_neg (by omega), Int.toNat_natCast]

theorem align_of_rebias_nonpos {k : Nat} (h1 : 1 ≤ k) (h53 : k ≤ 53) (h : rebias d n = 1 - k) :
    align d n m0 = (shiftSticky (fullSignificand n m0) k, 0) := by
  have hk : underflowShift (1 - (k : Int)) = k := by
    rw [underflowShift]
    omega
  rw [align, h, if_pos (by omega), hk]

end align

/-- A zero takes the underflow path in every format in XR, and stays a zero (spec 42 R126). -/
theorem align_zero {d : Desc} (hd : d.InXR) : align d 0 0 = (0, 0) := by
  obtain ⟨-, -, -, -, hxr⟩ := hd
  have hneg : rebias d 0 ≤ 0 := by
    have hdelta : d.delta = d.B - 1023 := rfl
    rw [rebias]
    omega
  rw [align, if_pos hneg]
  simp [fullSignificand, shiftSticky]

section encodeDecode
variable {d : Desc} (hd : d.InXR) (rm : RoundingMode) {sg : Bool} (hs : d.S = 0 → sg = false)
include hd hs

theorem encodeF64_zero : encodeF64 d rm (f64 sg 0 0#52) = patternFrom d sg 0 0 := by
  have halign := align_zero hd
  obtain ⟨hS, ⟨hE, -⟩, -⟩ := hd
  have hover : ¬d.maxE ≤ 0 := Nat.not_le.2 (maxE_pos hE)
  have h := encodeF64_of_align hS (rm := rm) (a := f64 sg 0 0#52) (e := 0) (ef := 0) (mf := 0)
    (f64IsNaN_f64_of_lt _ _ (by decide)) (by simpa using halign)
    (if_neg hover) (Nat.two_pow_pos _) (Nat.two_pow_pos _) (by simpa using hs)
  rwa [f64Sign_f64] at h

/-- An infinity is past the range of every format in XR, and stays an infinity (spec 43 R157; 90 C2). -/
theorem encodeF64_infinity : encodeF64 d rm (f64 sg 2047 0#52) = patternFrom d sg d.maxE 0 := by
  obtain ⟨hS, ⟨-, hE⟩, -, hB, hxr⟩ := hd
  have hmax := maxE_le_255 hE
  have hdelta : d.delta = d.B - 1023 := rfl
  have hrebias : rebias d 2047 = ((1024 + d.B).toNat : Int) := by
    rw [rebias]
    omega
  have halign : align d 2047 0 = (0, (1024 + d.B).toNat) :=
    align_of_rebias_pos 0 (by omega) hrebias
  have hover : overflow d rm sg 2047 (1024 + d.B).toNat 0 = (d.maxE, 0) := by
    rw [overflow, if_pos (by omega), if_neg (fun h => h.1 rfl)]
  have h := encodeF64_of_align hS (rm := rm) (a := f64 sg 2047 0#52) (ef := d.maxE) (mf := 0)
    (f64IsNaN_f64_of_frac_zero _) (by simpa using halign) (by simpa using hover)
    (maxE_lt d) (Nat.two_pow_pos _) (by simpa using hs)
  rwa [f64Sign_f64] at h

/-- The rebias of ENC takes back that of DEC (spec 41 R107; 42 R124). -/
theorem encodeF64_decodeNormal {ef mf : Nat} (hmf : mf < 2 ^ d.M) (h0 : 0 < ef) (hlt : ef < d.maxE) :
    encodeF64 d rm (decodeNormal d sg ef mf) = patternFrom d sg ef mf := by
  obtain ⟨n, hn, hn2, hn1277, hword⟩ := decodeNormal_eq hd sg mf h0 hlt
  obtain ⟨hS, -, ⟨-, hM⟩, -⟩ := hd
  have halign : align d n (mf * 2 ^ d.sh) = (mf * 2 ^ d.sh, ef) :=
    align_of_rebias_pos _ h0.ne' (by rw [rebias, hn]; omega)
  have h := encodeF64_of_align hS (rm := rm) (a := f64 sg n (BitVec.ofNat 52 (mf * 2 ^ d.sh)))
    (f64IsNaN_f64_of_lt _ _ (by omega))
    (by rwa [f64Exp_f64 _ _ (by omega), f64Frac_f64, toNat_leftJustified (by omega) hmf])
    (if_neg (by omega)) (hlt.trans (maxE_lt d)) hmf (by simpa using hs)
  rwa [f64Sign_f64, ← hword] at h

/-- The underflow shift of ENC takes back the normalization of DEC (spec 41 R104; 42 R126). -/
theorem encodeF64_decodeSubnormal {mf : Nat} (hmf : mf < 2 ^ d.M) (h0 : mf ≠ 0) :
    encodeF64 d rm (decodeSubnormal d sg mf) = patternFrom d sg 0 mf := by
  obtain ⟨n, hn, hn2, hn1023, hword⟩ := decodeSubnormal_eq hd sg hmf h0
  obtain ⟨hz1, hzM⟩ := subnormalShift_bounds h0 hmf
  obtain ⟨hS, ⟨hE, -⟩, ⟨-, hM⟩, -⟩ := hd
  have hover : ¬d.maxE ≤ 0 := Nat.not_le.2 (maxE_pos hE)
  have hfrac : mf * 2 ^ subnormalShift d mf % 2 ^ d.M < 2 ^ d.M := Nat.mod_lt _ (Nat.two_pow_pos _)
  have hfull : fullSignificand n (mf * 2 ^ subnormalShift d mf % 2 ^ d.M * 2 ^ d.sh)
      = mf * 2 ^ d.sh * 2 ^ subnormalShift d mf := by
    rw [fullSignificand, if_pos (by omega), ← two_pow_M_mul_two_pow_sh (d := d) (by omega), ← Nat.add_mul,
      two_pow_M_add_normalized h0 hmf, Nat.mul_right_comm]
  have halign : align d n (mf * 2 ^ subnormalShift d mf % 2 ^ d.M * 2 ^ d.sh) = (mf * 2 ^ d.sh, 0) := by
    rw [align_of_rebias_nonpos _ hz1 (by omega) (by rw [rebias, hn]; omega), hfull,
      shiftSticky_mul_two_pow]
  have h := encodeF64_of_align hS (rm := rm)
    (a := f64 sg n (BitVec.ofNat 52 (mf * 2 ^ subnormalShift d mf % 2 ^ d.M * 2 ^ d.sh)))
    (f64IsNaN_f64_of_lt _ _ (by omega))
    (by rwa [f64Exp_f64 _ _ (by omega), f64Frac_f64, toNat_leftJustified (by omega) hfrac])
    (if_neg hover) (Nat.two_pow_pos _) hmf (by simpa using hs)
  rwa [f64Sign_f64, ← hword] at h

end encodeDecode

/-- ENC gives back the pattern of a word that DEC gave, in every mode (spec 41 R112). -/
theorem encodeF64_decodePattern {d : Desc} (hd : d.InXR) (rm : RoundingMode) {p : Nat}
    (hp : p < 2 ^ d.T) (hn : classify d p ≠ .nan) (nanFrac : Fraction) :
    encodeF64 d rm (decodePattern d p nanFrac) = p := by
  have hmf := patFrac_lt d p
  have hs : d.S = 0 → patSign d p = false := patSign_of_unsigned p
  have ⟨hS, _⟩ := hd
  obtain ⟨hpat, -⟩ := hasFields_of_lt hS hp
  refine .trans ?_ hpat.symm
  rcases classify_cases d p with ⟨hc, he, hf⟩ | ⟨hc, he, hf⟩ | ⟨hc, he, hf⟩ | ⟨hc, -⟩ | ⟨hc, h0, hlt⟩
  · rw [decodePattern_of_zero _ hc, encodeF64_zero hd rm hs, he, hf]
  · rw [decodePattern_of_subnormal _ hc, encodeF64_decodeSubnormal hd rm hs hmf hf, he]
  · rw [decodePattern_of_infinity _ hc, encodeF64_infinity hd rm hs, he, hf]
  · exact absurd hc hn
  · rw [decodePattern_of_normal _ hc, encodeF64_decodeNormal hd rm hs hmf h0 hlt]

/-- Settles O34: the word does not depend on the state, and each ENC command rounds it in some mode. -/
theorem encOfDecIsThePattern : Obligations.EncOfDecIsThePattern := by
  intro f w h hn
  refine ⟨_, fun s => execDec_of_ne_nan h s hn, fun i hi s => ?_⟩
  obtain ⟨rm, hexec⟩ := exec_encCommand_of_exact h hi
  rw [hexec, encodeF64_decodePattern (inXR_descOf h) rm (patternOf_lt _ w) hn]
  rfl

end Sys2Proof.Machine

/-! The encoder (spec 42): what the six ENC commands answer, the unit's outputs as ENC meets them, the
inputs whose pattern the spec names, and the ranges of what passes between the stages. -/

namespace Sys2Proof.Machine

/-! ## The ENC commands (spec 42 R140 to R145) -/

/-- An ENC command completes on a legal descriptor in XR. -/
theorem encodeCommand_of_exact {f : FmtArgs} (h : f.Exact) (x : Word64) (rm : Desc → RoundingMode)
    (s : State) :
    encodeCommand f x rm s
      = .next (s.respondOk (BitVec.ofNat 64 (encodeF64 (descOf f) (rm (descOf f)) x))) :=
  withExactRange_of_exact h s _

/-- Settles O26: the six commands share one meaning, which completes in XR. -/
theorem encAnswersWithThePattern : Obligations.EncAnswersWithThePattern := by
  intro f x s h
  have henc := fun rm => encodeCommand_of_exact h x rm s
  exact ⟨henc _, henc _, henc _, henc _, henc _, henc _⟩

/-- ENC.DEF takes the mode that the descriptor's code stands for, whether or not the descriptor passes the
check (spec 30 R57). -/
theorem execEncDef_eq_encodeCommand (f : FmtArgs) (x : Word64) (s : State) :
    execEncDef f x s = encodeCommand f x (fun _ => defaultModeOf f.rmDefault) s := by
  cases hv : validate f with
  | error err => simp only [execEncDef, encodeCommand, withExactRange, withDescriptor_error hv]
  | ok d =>
    obtain ⟨rfl, -⟩ := validate_ok_cases hv
    simp only [execEncDef, encodeCommand, withExactRange, withDescriptor_ok hv]
    rfl

/-- Settles O27: each code's mode is the one of the command named. -/
theorem encDefActsAsItsDefaultMode : Obligations.EncDefActsAsItsDefaultMode := by
  intro f x s
  have hmode : ∀ code, f.rmDefault = code →
      exec (.encDef f x) s = encodeCommand f x (fun _ => defaultModeOf code) s := by
    rintro _ rfl
    exact execEncDef_eq_encodeCommand f x s
  exact ⟨hmode 0, hmode 1, hmode 2, hmode 3, hmode 4, hmode 7⟩

/-! ## The sticky bit (spec 42 R126, R127) -/

/-- The round bit, read off the mantissa itself (spec 43 R149). -/
theorem roundBit_eq_testBit (mant : Nat) {sh : Nat} (hsh : 1 ≤ sh) :
    roundBit mant sh = mant.testBit (sh - 1) := by
  rw [roundBit, dropped, Nat.testBit_mod_two_pow, decide_eq_true (Nat.sub_lt hsh Nat.one_pos),
    Bool.true_and]

section sticky
variable (w k : Nat)

/-- The sticky shift sets at most the lowest bit of the plain shift. -/
theorem exists_shiftSticky_eq :
    ∃ b, b < 2 ∧ (w % 2 ^ k ≠ 0 → b = 1) ∧ shiftSticky w k = w / 2 ^ k ||| b := by
  refine ⟨if w % 2 ^ k ≠ 0 then 1 else 0, ?_, fun h => if_pos h, ?_⟩
  · split <;> decide
  · rw [shiftSticky, Nat.shiftRight_eq_div_pow]

/-- Above its lowest bit, the sticky shift is the plain shift. -/
theorem testBit_shiftSticky {i : Nat} (hi : 1 ≤ i) :
    (shiftSticky w k).testBit i = (w / 2 ^ k).testBit i := by
  obtain ⟨b, hb, -, heq⟩ := exists_shiftSticky_eq w k
  have hlow : b.testBit i = false :=
    Nat.testBit_lt_two_pow (hb.trans_le (Nat.le_self_pow (by omega) 2))
  rw [heq, Nat.testBit_or, hlow, Bool.or_false]

theorem retained_shiftSticky {sh : Nat} (hsh : 1 ≤ sh) :
    retained (shiftSticky w k) sh = retained (w / 2 ^ k) sh := by
  apply Nat.eq_of_testBit_eq
  intro i
  rw [retained, retained, Nat.testBit_div_two_pow, Nat.testBit_div_two_pow,
    testBit_shiftSticky w k (by omega)]

theorem roundBit_shiftSticky {sh : Nat} (hsh : 2 ≤ sh) :
    roundBit (shiftSticky w k) sh = roundBit (w / 2 ^ k) sh := by
  rw [roundBit_eq_testBit _ (by omega), roundBit_eq_testBit _ (by omega),
    testBit_shiftSticky w k (by omega)]

end sticky

/-- The sticky shift of a 53-bit word by one place or more is a 52-bit mantissa (spec 42 R125). -/
theorem shiftSticky_lt {w k : Nat} (hw : w < 2 ^ 53) (hk : 1 ≤ k) : shiftSticky w k < 2 ^ 52 := by
  obtain ⟨b, hb, -, heq⟩ := exists_shiftSticky_eq w k
  have hdiv : w / 2 ^ k < 2 ^ 52 := by
    rw [Nat.div_lt_iff_lt_mul (Nat.two_pow_pos k), ← pow_add]
    exact hw.trans_le (Nat.pow_le_pow_right (by decide) (by omega))
  rw [heq]
  exact Nat.or_lt_two_pow hdiv (by omega)

/-- A mantissa with its lowest bit set has a lower bit and a dropped bit (spec 43 R149). -/
theorem lowerBits_anyDropped_of_odd {mant sh : Nat} (hsh : 2 ≤ sh) (h : mant.testBit 0 = true) :
    lowerBits mant sh = true ∧ anyDropped mant sh = true := by
  have hlow : (dropped mant sh % 2 ^ (sh - 1)).testBit 0 = true := by
    rw [dropped, Nat.testBit_mod_two_pow, Nat.testBit_mod_two_pow, h]
    simp only [Bool.and_true, Bool.and_eq_true, decide_eq_true_eq]
    omega
  have hne : dropped mant sh % 2 ^ (sh - 1) ≠ 0 := fun h0 => by simp [h0] at hlow
  exact ⟨decide_eq_true hne, decide_eq_true fun h0 => hne (by rw [h0, Nat.zero_mod])⟩

/-- Settles O33: the round bit and the retained part lie above bit 0, the only one that the sticky shift
sets. -/
theorem stickyBitIsALowerBitOnly : Obligations.StickyBitIsALowerBitOnly := by
  intro d w k hM hM23
  have hsh : d.sh = 52 - d.M := rfl
  refine ⟨by omega, retained_shiftSticky w k (by omega), roundBit_shiftSticky w k (by omega),
    fun hlost => ?_⟩
  obtain ⟨b, -, hb, heq⟩ := exists_shiftSticky_eq w k
  have hodd : (shiftSticky w k).testBit 0 = true := by
    rw [heq, hb hlost, Nat.testBit_or]
    simp
  exact ⟨hodd, lowerBits_anyDropped_of_odd (by omega) hodd⟩

/-! ## What goes to the rounding unit (spec 42 R124 to R128) -/

theorem f64Exp_lt (x : Word64) : f64Exp x < 2048 := (x.extractLsb' 52 11).isLt

theorem f64Frac_lt (x : Word64) : f64Frac x < 2 ^ 52 := (x.extractLsb' 0 52).isLt

/-- The significand with its implicit bit has 53 bits (spec 42 R126). -/
theorem fullSignificand_lt (e0 : Nat) {m0 : Nat} (h : m0 < 2 ^ 52) : fullSignificand e0 m0 < 2 ^ 53 := by
  unfold fullSignificand
  split <;> omega

/-- The bias and `delta` of a format in XR (spec 42 R125). -/
theorem delta_bounds {d : Desc} (hd : d.InXR) : d.B ≤ 1021 ∧ -1023 ≤ d.delta ∧ d.delta ≤ -2 := by
  obtain ⟨-, -, ⟨hM, -⟩, hB, hxr⟩ := hd
  have hdelta : d.delta = d.B - 1023 := rfl
  omega

theorem rebias_bounds {d : Desc} (hd : d.InXR) (x : Word64) :
    -1023 ≤ rebias d (f64Exp x) ∧ rebias d (f64Exp x) ≤ 2045 := by
  have hexp := f64Exp_lt x
  have hdelta := delta_bounds hd
  rw [rebias]
  omega

/-- The two paths of the alignment (spec 42 R126, R128). -/
theorem align_cases (d : Desc) (e0 m0 : Nat) :
    (rebias d e0 ≤ 0 ∧ ∃ k : Nat, (k : Int) = min (1 - rebias d e0) 53
        ∧ align d e0 m0 = (shiftSticky (fullSignificand e0 m0) k, 0))
      ∨ (0 < rebias d e0 ∧ ∃ e : Nat, (e : Int) = rebias d e0 ∧ align d e0 m0 = (m0, e)) := by
  by_cases h : rebias d e0 ≤ 0
  · refine .inl ⟨h, underflowShift (rebias d e0), ?_, by rw [align, if_pos h]⟩
    rw [underflowShift]
    omega
  · exact .inr ⟨by omega, (rebias d e0).toNat, by omega, by rw [align, if_neg h]⟩

/-- The alignment gives inputs of the rounding unit (spec 42 R125; 43 R149). -/
theorem align_bounds {d : Desc} (hd : d.InXR) (x : Word64) :
    (align d (f64Exp x) (f64Frac x)).1 < 2 ^ 52 ∧ (align d (f64Exp x) (f64Frac x)).2 ≤ 2045 := by
  have hfrac := f64Frac_lt x
  have hrebias := rebias_bounds hd x
  rcases align_cases d (f64Exp x) (f64Frac x) with ⟨hneg, k, hk, heq⟩ | ⟨hpos, e, he, heq⟩ <;> rw [heq]
  · exact ⟨shiftSticky_lt (fullSignificand_lt _ hfrac) (by omega), Nat.zero_le _⟩
  · exact ⟨hfrac, by dsimp only; omega⟩

/-- What the rounding unit gives on the word that ENC hands to it (spec 42 R130, R131). -/
def encoderUnit (d : Desc) (rm : RoundingMode) (x : Word64) : UnitOutput :=
  roundingUnit d rm (align d (f64Exp x) (f64Frac x)).1 (f64Sign x) (f64Exp x)
    (align d (f64Exp x) (f64Frac x)).2

/-- The ranges of the unit's outputs within ENC (spec 42 R125). -/
theorem encoderUnit_bounds {d : Desc} (hd : d.InXR) (rm : RoundingMode) (x : Word64) :
    (encoderUnit d rm x).eCarried ≤ 2046 ∧ (encoderUnit d rm x).e ≤ d.maxE
      ∧ (encoderUnit d rm x).r < 2 ^ d.M := by
  obtain ⟨hmant, he⟩ := align_bounds hd x
  obtain ⟨-, hcarried, -, hfinal, hr⟩ := roundingUnit_ranges hd rm hmant (f64Sign x) (f64Exp x)
    (align d (f64Exp x) (f64Frac x)).2
  exact ⟨hcarried.trans (by omega), hfinal, hr⟩

/-- Settles O32. -/
theorem encoderRanges : Obligations.EncoderRanges := by
  intro d rm x hd
  obtain ⟨hmant, he⟩ := align_bounds hd x
  obtain ⟨hcarried, hfinal, -⟩ := encoderUnit_bounds hd rm x
  exact ⟨delta_bounds hd, rebias_bounds hd x, hmant, he, hcarried, hfinal⟩

/-! ## The encoder's result (spec 42 R123, R132, R134) -/

theorem saturated_encoderUnit (d : Desc) (rm : RoundingMode) (x : Word64) :
    (encoderUnit d rm x).saturated
      = if d.S = 0 ∧ f64Sign x = true
        then some (unsignedNegative d rm (encoderUnit d rm x).e (encoderUnit d rm x).r) else none := rfl

section encodeF64
variable {d : Desc} (rm : RoundingMode) {x : Word64}

theorem encodeF64_of_nan (h : f64IsNaN x = true) : encodeF64 d rm x = d.allOnes := by
  rw [encodeF64, if_pos h]

/-- No NaN: the unit's unsigned pattern where there is one, else its fields packed (spec 42 R138). -/
theorem encodeF64_of_not_nan (h : f64IsNaN x = false) :
    encodeF64 d rm x = (encoderUnit d rm x).saturated.getD
      (pack d (f64Sign x) (encoderUnit d rm x).e (encoderUnit d rm x).r) := by
  rw [encodeF64, h, if_neg Bool.false_ne_true, encoderUnit]
  dsimp only
  generalize roundingUnit _ _ _ _ _ _ = out
  cases out.saturated <;> rfl

/-- A negative input to an unsigned format gives the pattern of the unsigned rule (spec 42 R132). -/
theorem encodeF64_of_unsigned_negative (hnan : f64IsNaN x = false) (hS : d.S = 0)
    (hs : f64Sign x = true) :
    encodeF64 d rm x = unsignedNegative d rm (encoderUnit d rm x).e (encoderUnit d rm x).r := by
  rw [encodeF64_of_not_nan rm hnan, saturated_encoderUnit, if_pos ⟨hS, hs⟩, Option.getD_some]

/-- Every other input gives the pattern of its sign and the unit's fields (spec 42 R134, R135). -/
theorem encodeF64_of_packed (hd : d.InXR) (hnan : f64IsNaN x = false)
    (hs : d.S = 0 → f64Sign x = false) :
    encodeF64 d rm x = patternFrom d (f64Sign x) (encoderUnit d rm x).e (encoderUnit d rm x).r := by
  obtain ⟨-, he, hr⟩ := encoderUnit_bounds hd rm x
  have ⟨hS, _⟩ := hd
  rw [encodeF64_of_not_nan rm hnan, saturated_encoderUnit, if_neg (fun h => by simp [hs h.1] at h),
    Option.getD_none, pack_eq_patternFrom hS (he.trans_lt (maxE_lt d)) hr hs]

end encodeF64

/-! ### The unsigned rule (spec 43 R160) -/

/-- Everything the unsigned rule can give. -/
theorem unsignedNegative_cases (d : Desc) (rm : RoundingMode) (e r : Nat) :
    ((rm = .truncate ∨ rm = .ceiling) ∧ unsignedNegative d rm e r = 0)
      ∨ (¬(rm = .truncate ∨ rm = .ceiling) ∧ e = 0 ∧ r = 0 ∧ unsignedNegative d rm e r = 0)
      ∨ (¬(rm = .truncate ∨ rm = .ceiling) ∧ ¬(e = 0 ∧ r = 0)
          ∧ unsignedNegative d rm e r = d.allOnes) := by
  unfold unsignedNegative
  by_cases hrm : rm = .truncate ∨ rm = .ceiling
  · exact .inl ⟨hrm, if_pos hrm⟩
  · rw [if_neg hrm]
    by_cases h0 : e = 0 ∧ r = 0
    · exact .inr (.inl ⟨hrm, h0.1, h0.2, if_pos h0⟩)
    · exact .inr (.inr ⟨hrm, h0, if_neg h0⟩)

theorem unsignedNegative_zero (d : Desc) (rm : RoundingMode) : unsignedNegative d rm 0 0 = 0 := by
  simp [unsignedNegative]

/-! ### The size of the result (spec 42 R136) -/

theorem allOnes_lt (d : Desc) : d.allOnes < 2 ^ d.T := Nat.sub_lt (Nat.two_pow_pos _) Nat.one_pos

theorem unsignedNegative_lt (d : Desc) (rm : RoundingMode) (e r : Nat) :
    unsignedNegative d rm e r < 2 ^ d.T := by
  rcases unsignedNegative_cases d rm e r with ⟨-, h⟩ | ⟨-, -, -, h⟩ | ⟨-, -, h⟩ <;> rw [h]
  · exact Nat.two_pow_pos _
  · exact Nat.two_pow_pos _
  · exact allOnes_lt d

/-- The encoder's result is a pattern of the format (spec 42 R136). -/
theorem encodeF64_lt {d : Desc} (hd : d.InXR) (rm : RoundingMode) (x : Word64) :
    encodeF64 d rm x < 2 ^ d.T := by
  cases hnan : f64IsNaN x with
  | true =>
    rw [encodeF64_of_nan rm hnan]
    exact allOnes_lt d
  | false =>
    by_cases hneg : d.S = 0 ∧ f64Sign x = true
    · rw [encodeF64_of_unsigned_negative rm hnan hneg.1 hneg.2]
      exact unsignedNegative_lt _ _ _ _
    · have hs : d.S = 0 → f64Sign x = false := fun hS => by simpa [hS] using hneg
      obtain ⟨-, he, hr⟩ := encoderUnit_bounds hd rm x
      have ⟨hS, _⟩ := hd
      exact lt_of_hasFields hS
        ⟨encodeF64_of_packed rm hd hnan hs, he.trans_lt (maxE_lt d), hr, hs⟩

/-- Settles O31: a pattern is below `2^T`, and stays so as a 64-bit word. -/
theorem encResultFitsThePattern : Obligations.EncResultFitsThePattern := by
  intro f x i s t hf hi h
  obtain ⟨rm, hexec⟩ := exec_encCommand_of_exact hf hi
  rw [hexec] at h
  cases h
  refine ⟨_, rfl, ?_⟩
  rw [BitVec.toNat_ofNat]
  exact (Nat.mod_le _ _).trans_lt (encodeF64_lt (inXR_descOf hf) rm x)

/-! ## Named inputs (spec 42 R146 to R148) -/

/-- Each of the six ENC commands answers `v` where the encoder gives `v` in every mode. -/
theorem exec_encCommand_of_forall_mode {f : FmtArgs} {x : Word64} {v : Nat} (hf : f.Exact)
    (h : ∀ rm, encodeF64 (descOf f) rm x = v) {i : Instr} (hi : i ∈ encCommands f x) (s : State) :
    exec i s = .next (s.respondOk (BitVec.ofNat 64 v)) := by
  obtain ⟨rm, hexec⟩ := exec_encCommand_of_exact hf hi
  rw [hexec, h rm]

theorem f64IsNaN_f64_of_frac_ne_zero (sg : Bool) {fr : Fraction} (h : fr ≠ 0#52) :
    f64IsNaN (f64 sg 2047 fr) = true := by
  have hfrac : fr.toNat ≠ 0 := fun h0 => h (BitVec.eq_of_toNat_eq h0)
  simp [f64IsNaN, Config.nativeMaxExponent, hfrac]

/-- Settles O28: a NaN gives the all-ones pattern before any mode is looked at. -/
theorem encOfNanIsAllOnes : Obligations.EncOfNanIsAllOnes := by
  intro f sg payload i s hf hp hi
  exact exec_encCommand_of_forall_mode hf
    (fun rm => encodeF64_of_nan rm (f64IsNaN_f64_of_frac_ne_zero sg hp)) hi s

/-- On a word whose alignment drops no bit the unit gives what the overflow policy leaves. -/
theorem encoderUnit_of_align {d : Desc} (rm : RoundingMode) {x : Word64} {e mf : Nat}
    (halign : align d (f64Exp x) (f64Frac x) = (mf * 2 ^ d.sh, e)) (hmf : mf < 2 ^ d.M) :
    ((encoderUnit d rm x).e, (encoderUnit d rm x).r)
      = overflow d rm (f64Sign x) (f64Exp x) e mf := by
  have hinc := increment_of_dropped_zero rm (f64Sign x) (dropped_mul_two_pow mf d.sh)
  have hcarry : carry d e mf = (e, mf) := if_neg hmf.ne
  simp only [encoderUnit, halign, roundingUnit, hinc, retained_mul_two_pow, Nat.add_zero, hcarry]

/-- An infinity's exponent is past the range of every format in XR (spec 42 R128; 43 R157). -/
theorem align_infinity {d : Desc} (hd : d.InXR) : ∃ e, d.maxE ≤ e ∧ align d 2047 0 = (0, e) := by
  obtain ⟨-, ⟨-, hE⟩, -, hB, -⟩ := hd
  have hmax := maxE_le_255 hE
  have hdelta : d.delta = d.B - 1023 := rfl
  have hrebias : rebias d 2047 = 2047 + d.delta := rfl
  rcases align_cases d 2047 0 with ⟨hneg, -⟩ | ⟨-, e, he, halign⟩
  · omega
  · exact ⟨e, by omega, halign⟩

section unsigned
variable {d : Desc} (hd : d.InXR) (hS : d.S = 0) (rm : RoundingMode)
include hd hS

/-- −0.0 in an unsigned format (spec 42 R146). -/
theorem encodeF64_negZero_unsigned : encodeF64 d rm (f64 true 0 0#52) = 0 := by
  have hunit := encoderUnit_of_align (d := d) rm (x := f64 true 0 0#52) (e := 0) (mf := 0)
    (by simpa using align_zero hd) (Nat.two_pow_pos _)
  obtain ⟨-, ⟨hE, -⟩, -⟩ := hd
  rw [overflow, if_neg (Nat.not_le.2 (maxE_pos hE))] at hunit
  obtain ⟨he, hr⟩ := Prod.mk.inj hunit
  rw [encodeF64_of_unsigned_negative rm (f64IsNaN_f64_of_frac_zero _) hS (f64Sign_f64 _ _ _), he, hr,
    unsignedNegative_zero]

/-- −Inf in an unsigned format: its exponent is past the range, so the magnitude is never zero
(spec 42 R147). -/
theorem encodeF64_negInf_unsigned :
    encodeF64 d rm (f64 true 2047 0#52)
      = if rm = .truncate ∨ rm = .ceiling then 0 else d.allOnes := by
  obtain ⟨e, hmax, halign⟩ := align_infinity hd
  have hunit := encoderUnit_of_align (d := d) rm (x := f64 true 2047 0#52) (e := e) (mf := 0)
    (by simpa using halign) (Nat.two_pow_pos _)
  rw [f64Exp_f64 _ _ (by decide), overflow, if_pos hmax, if_neg (fun h => h.1 rfl)] at hunit
  obtain ⟨he, hr⟩ := Prod.mk.inj hunit
  obtain ⟨-, ⟨hE, -⟩, -⟩ := hd
  have hne : ¬(d.maxE = 0 ∧ 0 = 0) := fun h => (maxE_pos hE).ne' h.1
  rw [encodeF64_of_unsigned_negative rm (f64IsNaN_f64_of_frac_zero _) hS (f64Sign_f64 _ _ _), he, hr,
    unsignedNegative, if_neg hne]

end unsigned

/-- Settles O29: only −0.0 in an unsigned format meets the unsigned rule. -/
theorem encOfZeros : Obligations.EncOfZeros := by
  intro f s hf
  have hd := inXR_descOf hf
  have ⟨hS, _⟩ := hd
  refine ⟨fun i hi => exec_encCommand_of_forall_mode hf (fun rm => ?_) hi s,
    fun i hi => exec_encCommand_of_forall_mode hf (fun rm => ?_) hi s⟩
  · exact (encodeF64_zero hd rm (sg := false) fun _ => rfl).trans (by simp [patternFrom])
  · obtain hz | hone : f.signBits = 0 ∨ f.signBits = 1 := hf.1.1
    · rw [hz, if_neg (by decide)]
      exact encodeF64_negZero_unsigned hd hz rm
    · rw [if_pos hone]
      refine (encodeF64_zero hd rm (sg := true) fun h => ?_).trans (by simp [patternFrom, descOf])
      exact absurd (hone.symm.trans h) (by decide)

/-- Settles O30: only −Inf in an unsigned format meets the unsigned rule. -/
theorem encOfInfinities : Obligations.EncOfInfinities := by
  intro f hf
  have hd := inXR_descOf hf
  refine ⟨fun rm => ?_, fun hone rm => ?_, fun hz => ⟨fun rm hrm => ?_, fun rm hrm => ?_⟩⟩
  · exact (encodeF64_infinity hd rm (sg := false) fun _ => rfl).trans
      (by simp [patternFrom, descOf, Desc.maxE])
  · refine (encodeF64_infinity hd rm (sg := true) fun h => ?_).trans
      (by simp [patternFrom, descOf, Desc.maxE])
    exact absurd (hone.symm.trans h) (by decide)
  · exact (encodeF64_negInf_unsigned hd hz rm).trans (if_pos hrm)
  · have hrm' : ¬(rm = .truncate ∨ rm = .ceiling) := by rcases hrm with rfl | rfl | rfl <;> decide
    exact (encodeF64_negInf_unsigned hd hz rm).trans (if_neg hrm')

/-! ## Exact inputs (spec 42 R139) -/

/-- A magnitude determines its fields. -/
theorem magnitude_inj {d : Desc} {ef ef' mf mf' : Nat} (hm : mf < 2 ^ d.M) (hm' : mf' < 2 ^ d.M)
    (h : magnitude d ef mf = magnitude d ef' mf') : ef = ef' ∧ mf = mf' := by
  rcases lt_trichotomy ef ef' with hlt | rfl | hgt
  · exact absurd h (magnitude_lt_of_exp_lt hm hlt).ne
  · rcases lt_trichotomy mf mf' with hlt | rfl | hgt
    · exact absurd h (magnitude_lt_of_frac_lt hlt).ne
    · exact ⟨rfl, rfl⟩
    · exact absurd h (magnitude_lt_of_frac_lt hgt).ne'
  · exact absurd h (magnitude_lt_of_exp_lt hm' hgt).ne'

/-- binary64 as a format of its own (spec 30 R70, R71). -/
def binary64Desc : Desc where
  S   := 1
  E   := 11
  M   := Config.nativeFractionBits
  B   := Config.nativeBias
  RMD := .nearestEven

/-- A word's value is its signed magnitude times the smallest positive binary64 value. -/
theorem f64Value_eq_magnitude (w : Word64) :
    f64Value w
      = signFactor (f64Sign w) * magnitude binary64Desc (f64Exp w) (f64Frac w) * 2 ^ (-1074 : ℤ) := by
  by_cases h : f64Exp w = 0
  · simp [f64Value, magnitude, h]
  · have hexp : (2 : ℚ) ^ ((f64Exp w : ℤ) - 1075) = 2 ^ (f64Exp w - 1) * 2 ^ (-1074 : ℤ) := by
      rw [← zpow_natCast, ← zpow_add₀ two_ne_zero]
      congr 1
      omega
    simp only [f64Value, magnitude, h, if_false, hexp, binary64Desc, Config.nativeFractionBits]
    generalize (2 : ℚ) ^ (-1074 : ℤ) = smallest
    push_cast
    ring

theorem signFactor_ne_zero (s : Bool) : signFactor s ≠ 0 := by cases s <;> simp [signFactor]

/-- A word is determined by its sign and its value. -/
theorem eq_of_f64Value_eq {x y : Word64} (hs : f64Sign x = f64Sign y) (hv : f64Value x = f64Value y) :
    x = y := by
  rw [f64Value_eq_magnitude, f64Value_eq_magnitude, hs,
    mul_left_inj' (zpow_ne_zero _ two_ne_zero), mul_right_inj' (signFactor_ne_zero _), Nat.cast_inj] at hv
  obtain ⟨he, hf⟩ := magnitude_inj (d := binary64Desc) (f64Frac_lt x) (f64Frac_lt y) hv
  rw [← f64_of_fields x, ← f64_of_fields y, hs, he, hf]

/-- Settles O35: the word is the one that DEC gives for the pattern, which ENC takes back. -/
theorem exactInputsEncodeToTheirPattern : Obligations.ExactInputsEncodeToTheirPattern := by
  intro d p x rm hd hp hfin _ hsign hvalue
  obtain ⟨-, hsign', hvalue'⟩ := decodePattern_exact hd hfin 0#52
  obtain rfl : x = decodePattern d p 0#52 :=
    eq_of_f64Value_eq (hsign.trans hsign'.symm) (hvalue.trans hvalue'.symm)
  refine encodeF64_decodePattern hd rm hp (fun hc => ?_) 0#52
  simp [FinitePattern, hc] at hfin

/-! ## The encoder and the rounding unit by itself (spec 42 R138) -/

/-- The strategy of a mode runs by itself on operands of spec 43 R149. -/
theorem exec_ruWith_of_exact {u : UnitArgs} (h : u.fmt.Exact) (he : u.e ≤ 2045) (rm : RoundingMode)
    (s : State) :
    exec (ruWith rm u) s
      = .next (s.presentUnit (roundingUnit (descOf u.fmt) rm u.mant.toNat u.s0 u.e0.toNat u.e)) := by
  cases rm <;> exact runUnit_of_exact h he _ s

theorem exec_encWith_of_exact {f : FmtArgs} (h : f.Exact) (x : Word64) (rm : RoundingMode) (s : State) :
    exec (encWith rm f x) s
      = .next (s.respondOk (BitVec.ofNat 64 (encodeF64 (descOf f) rm x))) := by
  cases rm <;> exact encodeCommand_of_exact h x _ s

/-- The unsigned pattern where there is one, else the fields side by side (spec 42 R132, R134, R135). -/
theorem encodeF64_eq_getD {d : Desc} (hd : d.InXR) (rm : RoundingMode) {x : Word64}
    (hnan : f64IsNaN x = false) :
    encodeF64 d rm x = (encoderUnit d rm x).saturated.getD
      ((if d.S = 1 ∧ f64Sign x = true then 2 ^ (d.E + d.M) else 0)
        + (encoderUnit d rm x).e * 2 ^ d.M + (encoderUnit d rm x).r) := by
  rw [saturated_encoderUnit]
  by_cases hneg : d.S = 0 ∧ f64Sign x = true
  · rw [encodeF64_of_unsigned_negative rm hnan hneg.1 hneg.2, if_pos hneg, Option.getD_some]
  · have hs : d.S = 0 → f64Sign x = false := fun hS => by simpa [hS] using hneg
    have hsign : (d.S = 1 ∧ f64Sign x = true) ↔ f64Sign x = true := by
      refine and_iff_right_of_imp fun h => ?_
      have ⟨hS, _⟩ := hd
      have hne : d.S ≠ 0 := fun h0 => hneg ⟨h0, h⟩
      omega
    rw [encodeF64_of_packed rm hd hnan hs, if_neg hneg, Option.getD_none, if_congr hsign rfl rfl,
      patternFrom]

/-- Settles O48: the operands described are those of the alignment, by either path. -/
theorem encoderIsAlignRoundPack : Obligations.EncoderIsAlignRoundPack := by
  intro rm f x u s hf hnan hfmt hs0 he0 hunder hnormal
  have hd := inXR_descOf hf
  have hrebias : rebias (descOf f) (f64Exp x) = (f64Exp x : Int) + (effectiveBias f - 1023) := rfl
  have hoperands : align (descOf f) (f64Exp x) (f64Frac x) = (u.mant.toNat, u.e) := by
    rcases align_cases (descOf f) (f64Exp x) (f64Frac x) with
      ⟨hneg, k, hk, halign⟩ | ⟨hpos, e, he, halign⟩
    · obtain ⟨hue, k', hk', hmant⟩ := hunder (hrebias ▸ hneg)
      obtain rfl : k' = k := by omega
      rw [halign, hmant, hue, shiftSticky, fullSignificand, Nat.shiftRight_eq_div_pow]
      simp only [ne_eq, ite_not]
    · obtain ⟨hue, hmant⟩ := hnormal (hrebias ▸ hpos)
      obtain rfl : u.e = e := by omega
      rw [halign, hmant]
  have hunit : roundingUnit (descOf f) rm u.mant.toNat u.s0 u.e0.toNat u.e
      = encoderUnit (descOf f) rm x := by
    rw [encoderUnit, hoperands, hs0, he0]
  obtain ⟨-, hle⟩ := align_bounds hd x
  rw [hoperands] at hle
  refine ⟨encoderUnit (descOf f) rm x, ?_, ?_⟩
  · rw [exec_ruWith_of_exact (hfmt ▸ hf) hle, hfmt, hunit]
    rfl
  · rw [exec_encWith_of_exact hf, encodeF64_eq_getD hd rm hnan]
    rfl
end Sys2Proof.Machine

/-! The rounding unit (spec 43): its terms and increments as conditions on the dropped part, the strategies
run by themselves, what a change of sign does, and where a word lies between the patterns it rounds to. -/

namespace Sys2Proof.Machine

/-! ## The terms of the unit (spec 43 R149) -/

section terms
variable {mant sh : Nat}

/-- The bits below the round bit, read off the mantissa itself. -/
theorem dropped_mod_two_pow (mant sh : Nat) :
    dropped mant sh % 2 ^ (sh - 1) = mant % 2 ^ (sh - 1) :=
  Nat.mod_mod_of_dvd _ (pow_dvd_pow 2 (Nat.sub_le sh 1))

theorem two_mul_two_pow_sub_one (hsh : 1 ≤ sh) : 2 * 2 ^ (sh - 1) = 2 ^ sh := by
  rw [← pow_succ', Nat.sub_add_cancel hsh]

/-- The round bit is the highest of the dropped bits, so it is set from half an ULP on. -/
theorem roundBit_iff_le_dropped (hsh : 1 ≤ sh) :
    roundBit mant sh = true ↔ 2 ^ (sh - 1) ≤ dropped mant sh := by
  refine ⟨Nat.ge_two_pow_of_testBit, fun hle => ?_⟩
  refine Nat.testBit_of_two_pow_le_and_two_pow_add_one_gt hle ?_
  rw [Nat.sub_add_cancel hsh]
  exact dropped_lt mant sh

/-- With the round bit set, the lower bits are what the dropped part has beyond half an ULP. -/
theorem lowerBits_iff_lt_dropped (hsh : 1 ≤ sh) (h : roundBit mant sh = true) :
    lowerBits mant sh = true ↔ 2 ^ (sh - 1) < dropped mant sh := by
  have hle := (roundBit_iff_le_dropped hsh).1 h
  have hlt := dropped_lt mant sh
  rw [← two_mul_two_pow_sub_one hsh] at hlt
  rw [lowerBits, decide_eq_true_eq, Nat.mod_eq_sub_mod hle, Nat.mod_eq_of_lt (by omega)]
  omega

theorem retainedOdd_eq_testBit (mant sh : Nat) : retainedOdd mant sh = mant.testBit sh := by
  rw [retainedOdd, retained, Nat.testBit_eq_decide_div_mod_eq]

end terms

/-! ## The increments (spec 43 R150 to R154) -/

section increment
variable (mant sh : Nat) (s0 : Bool)

theorem increment_ceiling :
    increment .ceiling mant sh s0 = if dropped mant sh ≠ 0 ∧ s0 = false then 1 else 0 := by
  simp [increment, incCeiling, anyDropped]

theorem increment_floor :
    increment .floor mant sh s0 = if dropped mant sh ≠ 0 ∧ s0 = true then 1 else 0 := by
  simp [increment, incFloor, anyDropped]

theorem increment_nearestAway :
    increment .nearestAway mant sh s0 = if roundBit mant sh then 1 else 0 := rfl

theorem increment_nearestEven :
    increment .nearestEven mant sh s0
      = if roundBit mant sh && (lowerBits mant sh || retainedOdd mant sh) then 1 else 0 := rfl

variable {mant sh}

/-- NearestAway goes up from half an ULP on. -/
theorem increment_nearestAway_eq_ite_le (hsh : 1 ≤ sh) :
    increment .nearestAway mant sh s0 = if 2 ^ (sh - 1) ≤ dropped mant sh then 1 else 0 := by
  rw [increment_nearestAway, if_congr (roundBit_iff_le_dropped hsh) rfl rfl]

/-- NearestEven goes up above half an ULP, and at half an ULP from an odd retained part. -/
theorem increment_nearestEven_eq_ite_lt (hsh : 1 ≤ sh) :
    increment .nearestEven mant sh s0
      = if 2 ^ (sh - 1) < dropped mant sh
          ∨ 2 ^ (sh - 1) = dropped mant sh ∧ retained mant sh % 2 = 1 then 1 else 0 := by
  rw [increment_nearestEven]
  refine if_congr ?_ rfl rfl
  rw [Bool.and_eq_true, Bool.or_eq_true, retainedOdd, decide_eq_true_eq]
  cases hrb : roundBit mant sh with
  | false =>
    have hlt : ¬2 ^ (sh - 1) ≤ dropped mant sh := by simp [← roundBit_iff_le_dropped hsh, hrb]
    simp only [Bool.false_eq_true, false_and, false_iff]
    exact fun h => hlt (h.elim le_of_lt fun heq => heq.1.le)
  | true =>
    have hle := (roundBit_iff_le_dropped hsh).1 hrb
    rw [lowerBits_iff_lt_dropped hsh hrb, and_iff_right rfl]
    exact or_congr_right' fun hno => (and_iff_right (hle.antisymm (Nat.not_lt.1 hno))).symm

end increment

/-! ## The strategies run by themselves -/

section roundingUnit
variable (d : Desc) (rm : RoundingMode) (mant : Nat) (s0 : Bool) (e0 e : Nat)

theorem roundingUnit_inc :
    (roundingUnit d rm mant s0 e0 e).inc = increment rm mant d.sh s0 := rfl

theorem roundingUnit_eCarried :
    (roundingUnit d rm mant s0 e0 e).eCarried
      = (carry d e (retained mant d.sh + increment rm mant d.sh s0)).1 := rfl

theorem roundingUnit_rCarried :
    (roundingUnit d rm mant s0 e0 e).rCarried
      = (carry d e (retained mant d.sh + increment rm mant d.sh s0)).2 := rfl

theorem roundingUnit_final :
    ((roundingUnit d rm mant s0 e0 e).e, (roundingUnit d rm mant s0 e0 e).r)
      = overflow d rm s0 e0 (roundingUnit d rm mant s0 e0 e).eCarried
          (roundingUnit d rm mant s0 e0 e).rCarried := rfl

theorem roundingUnit_saturated :
    (roundingUnit d rm mant s0 e0 e).saturated
      = if d.S = 0 ∧ s0 = true
        then some (unsignedNegative d rm (roundingUnit d rm mant s0 e0 e).e
          (roundingUnit d rm mant s0 e0 e).r) else none := rfl

end roundingUnit

theorem sh_descOf (f : FmtArgs) : (descOf f).sh = 52 - f.significandBits := rfl

theorem M_descOf (f : FmtArgs) : (descOf f).M = f.significandBits := rfl

theorem sh_sub_one (d : Desc) : d.sh - 1 = 51 - d.M := by
  rw [Desc.sh, Config.nativeFractionBits]
  omega

theorem one_le_sh {d : Desc} (hM : d.M ≤ 23) : 1 ≤ d.sh := by
  rw [Desc.sh, Config.nativeFractionBits]
  omega

/-- Without an increment nothing is carried (spec 43 R150, R156). -/
theorem carry_retained {d : Desc} (hM : d.M ≤ 23) {mant : Nat} (h : mant < 2 ^ 52) (e : Nat) :
    carry d e (retained mant d.sh) = (e, retained mant d.sh) :=
  if_neg (retained_lt (by omega) h).ne

section strategies
variable {u : UnitArgs} (hf : u.fmt.Exact)
include hf

/-- The rounded mantissa is at most `2^M` (spec 43 R155). -/
theorem retained_add_increment_le (rm : RoundingMode) :
    retained u.mant.toNat (descOf u.fmt).sh + increment rm u.mant.toNat (descOf u.fmt).sh u.s0
      ≤ 2 ^ (descOf u.fmt).M := by
  obtain ⟨-, -, ⟨-, hM⟩, -⟩ := inXR_descOf hf
  have hq := retained_lt (d := descOf u.fmt) (by omega) u.mant.isLt
  have hinc := increment_le_one rm u.mant.toNat (descOf u.fmt).sh u.s0
  omega

/-- A strategy that does not increment presents the exponent and the retained part as they are. -/
theorem carried_of_increment_zero {rm : RoundingMode}
    (h : increment rm u.mant.toNat (descOf u.fmt).sh u.s0 = 0) (e0 : Nat) :
    (roundingUnit (descOf u.fmt) rm u.mant.toNat u.s0 e0 u.e).eCarried = u.e
      ∧ (roundingUnit (descOf u.fmt) rm u.mant.toNat u.s0 e0 u.e).rCarried
        = u.mant.toNat / 2 ^ (52 - u.fmt.significandBits) := by
  obtain ⟨-, -, ⟨-, hM⟩, -⟩ := inXR_descOf hf
  rw [roundingUnit_eCarried, roundingUnit_rCarried, h, Nat.add_zero, carry_retained hM u.mant.isLt]
  exact ⟨rfl, rfl⟩

end strategies

/-- Settles O40: without an increment the pair is the exponent and the retained part. -/
theorem ruTruncate : Obligations.RuTruncate := by
  intro u s hf he
  obtain ⟨hexp, hmant⟩ := carried_of_increment_zero hf (increment_truncate _ _ _) u.e0.toNat
  refine ⟨_, exec_ruWith_of_exact hf he .truncate s, rfl, hmant, hexp, fun hex hM => ?_⟩
  rw [hmant, hex, hM]
  rfl

/-- Settles O41: in the example the retained part 6 goes up to 7, which is below `2^3`. -/
theorem ruCeiling : Obligations.RuCeiling := by
  intro u s hf he
  have hinc := increment_ceiling u.mant.toNat (descOf u.fmt).sh u.s0
  have hodd : u.mant.toNat.testBit 0 = true → u.s0 = false →
      increment .ceiling u.mant.toNat (descOf u.fmt).sh u.s0 = 1 := by
    intro hbit hs
    obtain ⟨-, -, ⟨-, hM⟩, -⟩ := inXR_descOf hf
    have hsh := sh_sub_one (descOf u.fmt)
    obtain ⟨-, hany⟩ := lowerBits_anyDropped_of_odd (sh := (descOf u.fmt).sh) (by omega) hbit
    rw [hinc, if_pos ⟨of_decide_eq_true hany, hs⟩]
  refine ⟨_, exec_ruWith_of_exact hf he .ceiling s, hinc, fun hs => ?_, hodd, fun hex hM hs => ?_⟩
  · obtain ⟨-, hmant⟩ := carried_of_increment_zero hf (rm := .ceiling)
      (by rw [hinc, if_neg (by simp [hs])]) u.e0.toNat
    exact hmant
  · have hone := hodd (by rw [hex]; rfl) hs
    refine ⟨hone, ?_⟩
    rw [roundingUnit_rCarried, hone, hex, sh_descOf, hM, carry, if_neg (by rw [M_descOf, hM]; decide)]
    rfl

/-- Settles O42. -/
theorem ruFloor : Obligations.RuFloor := by
  intro u s hf he
  have hinc := increment_floor u.mant.toNat (descOf u.fmt).sh u.s0
  refine ⟨_, exec_ruWith_of_exact hf he .floor s, hinc, fun hs => ?_, fun hex hM => ?_⟩
  · obtain ⟨-, hmant⟩ := carried_of_increment_zero hf (rm := .floor)
      (by rw [hinc, if_neg (by simp [hs])]) u.e0.toNat
    exact hmant
  · rw [roundingUnit_inc, hinc, if_congr (and_iff_right ?_) rfl rfl]
    rw [hex, sh_descOf, hM]
    decide

/-- Settles O43: the round bit stands at place `51 - M`. -/
theorem ruNearestAway : Obligations.RuNearestAway := by
  intro u s hf he
  obtain ⟨-, -, ⟨-, hM⟩, -⟩ := inXR_descOf hf
  have hsh := one_le_sh hM
  have hinc : increment .nearestAway u.mant.toNat (descOf u.fmt).sh u.s0
      = if u.mant.getLsbD (51 - u.fmt.significandBits) then 1 else 0 := by
    rw [increment_nearestAway, roundBit_eq_testBit _ hsh, sh_sub_one]
    rfl
  refine ⟨_, exec_ruWith_of_exact hf he .nearestAway s, hinc, ?_, fun hex hM => hinc.trans ?_⟩
  · rw [roundingUnit_inc, increment_nearestAway_eq_ite_le _ hsh, sh_sub_one]
    simp only [ite_eq_left_iff, zero_ne_one, imp_false, not_not]
    rfl
  · rw [hex, hM]
    rfl

/-- Settles O44: the lowest retained bit stands at place `52 - M`. -/
theorem ruNearestEven : Obligations.RuNearestEven := by
  intro u s hf he
  obtain ⟨-, -, ⟨-, hM⟩, -⟩ := inXR_descOf hf
  have hsh := one_le_sh hM
  have hinc : increment .nearestEven u.mant.toNat (descOf u.fmt).sh u.s0
      = if u.mant.getLsbD (51 - u.fmt.significandBits) = true
          ∧ (u.mant.toNat % 2 ^ (51 - u.fmt.significandBits) ≠ 0
              ∨ u.mant.getLsbD (52 - u.fmt.significandBits) = true) then 1 else 0 := by
    rw [increment_nearestEven, roundBit_eq_testBit _ hsh, retainedOdd_eq_testBit, lowerBits,
      dropped_mod_two_pow, sh_sub_one]
    simp only [Bool.and_eq_true, Bool.or_eq_true, decide_eq_true_eq]
    rfl
  refine ⟨_, exec_ruWith_of_exact hf he .nearestEven s, hinc, fun htie => ?_,
    fun hex hM => hinc.trans ?_, fun hex hM => hinc.trans ?_⟩
  · have hhalf : dropped u.mant.toNat (descOf u.fmt).sh = 2 ^ ((descOf u.fmt).sh - 1) := by
      rw [sh_sub_one]
      exact htie
    have hround := increment_nearestEven_eq_ite_lt (mant := u.mant.toNat) u.s0 hsh
    simp only [hhalf, lt_irrefl, true_and, false_or] at hround
    rw [roundingUnit_inc, hround]
    show (retained u.mant.toNat (descOf u.fmt).sh + _) % 2 = 0
    split <;> omega
  · rw [hex, hM]
    rfl
  · rw [hex, hM]
    rfl

/-! ## Carry, overflow policy, unsigned rule (spec 43 R155 to R160) -/

/-- Settles O45: by the two things the carry can do. -/
theorem mantissaCarry : Obligations.MantissaCarry := by
  intro rm u s hf he
  refine ⟨_, exec_ruWith_of_exact hf he rm s, retained_add_increment_le hf rm, fun hfull => ?_,
    fun hfit => ?_⟩
  · refine ⟨?_, congrArg Prod.fst (if_pos hfull), congrArg Prod.snd (if_pos hfull)⟩
    rintro rfl
    obtain ⟨-, -, ⟨-, hM⟩, -⟩ := inXR_descOf hf
    exact (retained_lt (d := descOf u.fmt) (by omega) u.mant.isLt).ne hfull
  · exact ⟨congrArg Prod.fst (if_neg hfit), congrArg Prod.snd (if_neg hfit)⟩

/-- The modes in which a finite source past range stays finite, listed (spec 43 R157). -/
theorem staysFinite_iff (rm : RoundingMode) (s0 : Bool) :
    staysFinite rm s0 = true
      ↔ rm = .truncate ∨ (rm = .ceiling ∧ s0 = true) ∨ (rm = .floor ∧ s0 = false) := by
  cases rm <;> simp [staysFinite]

/-- Settles O46: by the three things the overflow policy can do. -/
theorem overflowPolicy : Obligations.OverflowPolicy := by
  intro rm u s hf he
  have hnative : u.e0 ≠ 2047#11 ↔ u.e0.toNat ≠ 2047 := not_congr BitVec.toNat_inj.symm
  refine ⟨_, exec_ruWith_of_exact hf he rm s, ?_⟩
  have hfinal := roundingUnit_final (descOf u.fmt) rm u.mant.toNat u.s0 u.e0.toNat u.e
  generalize roundingUnit _ _ _ _ _ _ = out at hfinal ⊢
  rw [hnative, ← staysFinite_iff]
  rcases overflow_cases (descOf u.fmt) rm u.s0 u.e0.toNat out.eCarried out.rCarried with
    ⟨hlt, ho⟩ | ⟨hle, he0, hstay, ho⟩ | ⟨hle, hinf, ho⟩ <;>
    obtain ⟨hfe, hfr⟩ := Prod.mk.inj (hfinal.trans ho)
  · exact ⟨fun _ => ⟨hfe, hfr⟩, fun hle => absurd hlt (Nat.not_lt.2 hle)⟩
  · exact ⟨fun hlt => absurd hlt (Nat.not_lt.2 hle),
      fun _ => ⟨fun _ => ⟨hfe, hfr⟩, fun hno => absurd ⟨he0, hstay⟩ hno⟩⟩
  · have hno : ¬(u.e0.toNat ≠ 2047 ∧ staysFinite rm u.s0 = true) := by
      rintro ⟨he0, hstay⟩
      rcases hinf with h | h
      · exact he0 h
      · simp [h] at hstay
    exact ⟨fun hlt => absurd hlt (Nat.not_lt.2 hle),
      fun _ => ⟨fun hyes => absurd hyes hno, fun _ => ⟨hfe, hfr⟩⟩⟩

/-- Settles O47: by the three things the unsigned rule can give. -/
theorem unsignedRule : Obligations.UnsignedRule := by
  intro rm u s hf he
  refine ⟨_, exec_ruWith_of_exact hf he rm s, fun hno => if_neg hno, fun hneg => ?_⟩
  have hones : (descOf u.fmt).allOnes = 2 ^ (u.fmt.exponentBits + u.fmt.significandBits) - 1 :=
    congrArg (· - 1) (two_pow_T_of_unsigned hneg.1)
  rw [roundingUnit_saturated, if_pos (show (descOf u.fmt).S = 0 ∧ u.s0 = true from hneg), ← hones]
  generalize roundingUnit _ _ _ _ _ _ = out
  rcases unsignedNegative_cases (descOf u.fmt) rm out.e out.r with
    ⟨hrm, hp⟩ | ⟨hrm, he0, hr0, hp⟩ | ⟨hrm, hne, hp⟩ <;> rw [hp]
  · exact ⟨fun _ => rfl, fun _ _ _ _ => rfl, fun htr hce => absurd hrm (not_or.2 ⟨htr, hce⟩)⟩
  · exact ⟨fun h => absurd h hrm, fun _ _ _ _ => rfl, fun _ _ hne => absurd ⟨he0, hr0⟩ hne⟩
  · exact ⟨fun h => absurd h hrm, fun _ _ he0 hr0 => absurd ⟨he0, hr0⟩ hne, fun _ _ _ => rfl⟩

/-! ## The frame of the strategies -/

theorem exec_strategy_eq_runUnit {u : UnitArgs} {i : Instr} (hi : i ∈ allStrategies u) :
    ∃ rm, ∀ s, exec i s = runUnit rm u s := by
  simp only [allStrategies, List.mem_cons, List.not_mem_nil, or_false] at hi
  rcases hi with rfl | rfl | rfl | rfl | rfl
  all_goals exact ⟨_, fun _ => rfl⟩

/-- The unit stops exactly on inputs outside spec 43 R149. -/
theorem runUnit_refused_iff (rm : RoundingMode) (u : UnitArgs) (s : State) :
    runUnit rm u s = .refused .unitInputOutOfRange ↔ ¬(u.fmt.Exact ∧ u.e ≤ 2045) := by
  refine ⟨fun h ⟨hf, he⟩ => ?_, fun hno => ?_⟩
  · rw [runUnit_of_exact hf he] at h
    cases h
  · rcases runUnit_cases rm u s with h | ⟨d, hv, hx, he, -⟩
    · exact h
    · exact absurd ⟨exact_of_validate hv hx, he⟩ hno

/-- Settles O51. -/
theorem strategyFrame : Obligations.StrategyFrame := by
  intro u i s hi
  refine ⟨fun t h => ?_, ?_⟩
  · obtain ⟨o, rfl⟩ := exec_strategy_next hi h
    exact ⟨rfl, rfl, rfl, rfl, rfl⟩
  · obtain ⟨rm, hrun⟩ := exec_strategy_eq_runUnit hi
    rw [hrun, runUnit_refused_iff]

/-! ## The trailing zero count (spec 43 R149) -/

/-- The trailing zero count is the greatest power of two that divides the word, up to its width. -/
theorem two_pow_dvd_iff_le_ctz {k fuel : Nat} (hk : k ≤ fuel) (v : Nat) :
    2 ^ k ∣ v ↔ k ≤ ctz fuel v := by
  induction fuel generalizing k v with
  | zero => simp [Nat.le_zero.1 hk]
  | succ fuel ih =>
    cases k with
    | zero => simp
    | succ k =>
      rw [ctz]
      by_cases hodd : v % 2 = 1
      · have hno : ¬2 ^ (k + 1) ∣ v := fun h => by
          have heven := (dvd_pow_self 2 k.succ_ne_zero).trans h
          omega
        simp [hodd, hno]
      · have hv : v = 2 * (v / 2) := by omega
        rw [if_neg hodd, Nat.add_le_add_iff_right, ← ih (Nat.le_of_succ_le_succ hk), pow_succ']
        conv_lhs => rw [hv]
        exact Nat.mul_dvd_mul_iff_left Nat.two_pos

theorem lowerBits_iff_not_dvd (mant sh : Nat) :
    lowerBits mant sh = true ↔ ¬2 ^ (sh - 1) ∣ mant := by
  rw [lowerBits, decide_eq_true_eq, dropped_mod_two_pow, Nat.dvd_iff_mod_eq_zero]

/-- Settles O49: with the round bit set, `2^sh` does not divide the mantissa, and `2^(sh-1)` divides it
exactly where no lower bit is set. -/
theorem tiesByTrailingZeroCount : Obligations.TiesByTrailingZeroCount := by
  intro d mant hM1 hM hmant hrb
  have hsh := one_le_sh hM
  have hsh52 : d.sh ≤ 52 := Nat.sub_le _ _
  have hround := (roundBit_iff_le_dropped hsh).1 hrb
  have hpos := Nat.two_pow_pos (d.sh - 1)
  have hle : dropped mant d.sh ≤ mant := Nat.mod_le _ _
  have hnot : ¬d.sh ≤ ctz 52 mant := by
    rw [← two_pow_dvd_iff_le_ctz hsh52]
    intro hdvd
    have hzero : dropped mant d.sh = 0 := Nat.mod_eq_zero_of_dvd hdvd
    omega
  have hlow : lowerBits mant d.sh = true ↔ ctz 52 mant < d.sh - 1 := by
    rw [lowerBits_iff_not_dvd, two_pow_dvd_iff_le_ctz ((Nat.sub_le _ 1).trans hsh52),
      not_le]
  refine ⟨by omega, hlow, ?_⟩
  rw [lowerBits_iff_lt_dropped hsh hrb] at hlow
  omega

/-! ## The change of sign (spec 43 R162) -/

section mirror
variable (rm : RoundingMode) (s0 : Bool)

theorem increment_mirror (mant sh : Nat) :
    increment (mirror rm) mant sh s0 = increment rm mant sh (!s0) := by
  cases rm <;> simp [mirror, increment, incNearestEven, incNearestAway, incTruncate, incCeiling, incFloor]

theorem staysFinite_mirror : staysFinite (mirror rm) s0 = staysFinite rm (!s0) := by
  cases rm <;> simp [mirror, staysFinite]

/-- The fields that the unit gives under the mirrored mode are those it gives for the other sign. -/
theorem roundingUnit_mirror (d : Desc) (mant e0 e : Nat) :
    (roundingUnit d (mirror rm) mant s0 e0 e).e = (roundingUnit d rm mant (!s0) e0 e).e
      ∧ (roundingUnit d (mirror rm) mant s0 e0 e).r = (roundingUnit d rm mant (!s0) e0 e).r := by
  simp only [roundingUnit, overflow, increment_mirror, staysFinite_mirror, and_self]

end mirror

section signFlip
variable (x : Word64)

theorem f64Sign_xor_signMask : f64Sign (x ^^^ 0x8000000000000000#64) = !f64Sign x := by
  simp [f64Sign]

theorem f64Exp_xor_signMask : f64Exp (x ^^^ 0x8000000000000000#64) = f64Exp x := by
  rw [f64Exp, BitVec.extractLsb'_xor]
  simp [f64Exp]

theorem f64Frac_xor_signMask : f64Frac (x ^^^ 0x8000000000000000#64) = f64Frac x := by
  rw [f64Frac, BitVec.extractLsb'_xor]
  simp [f64Frac]

end signFlip

/-- A number below `2^n` takes `2^n` in without a carry. -/
theorem xor_two_pow_of_lt {b n : Nat} (h : b < 2 ^ n) : b ^^^ 2 ^ n = 2 ^ n + b := by
  rw [← Nat.div_add_mod (b ^^^ 2 ^ n) (2 ^ n), Nat.xor_div_two_pow, Nat.xor_mod_two_pow,
    Nat.div_eq_of_lt h, Nat.mod_eq_of_lt h, Nat.div_self (Nat.two_pow_pos n), Nat.mod_self,
    Nat.zero_xor, Nat.xor_zero, Nat.mul_one]

/-- A change of a pattern's sign changes its sign bit. -/
theorem patternFrom_not {d : Desc} (sg : Bool) {ef mf : Nat} (he : ef < 2 ^ d.E) (hm : mf < 2 ^ d.M) :
    patternFrom d (!sg) ef mf = patternFrom d sg ef mf ^^^ d.signBit := by
  have hset : patternFrom d true ef mf = patternFrom d false ef mf ^^^ d.signBit := by
    have hxor := xor_two_pow_of_lt (lowFields_lt_signBit he hm)
    simpa [patternFrom, Desc.signBit, Nat.add_assoc] using hxor.symm
  cases sg with
  | false => exact hset
  | true => rw [hset, Nat.xor_assoc, Nat.xor_self, Nat.xor_zero, Bool.not_true]

/-- Settles O38: the alignment does not read the sign, and the unit reads it as `roundingUnit_mirror` says. -/
theorem signMirror : Obligations.SignMirror := by
  intro d x rm hd hS hnan
  have hunsigned (s : Bool) : d.S = 0 → s = false := fun h => absurd (hS.symm.trans h) (by decide)
  have hnan' : f64IsNaN (x ^^^ 0x8000000000000000#64) = false := by
    rw [f64IsNaN, f64Exp_xor_signMask, f64Frac_xor_signMask]
    exact hnan
  obtain ⟨he, hr⟩ : (encoderUnit d (mirror rm) x).e = (encoderUnit d rm (x ^^^ 0x8000000000000000#64)).e
      ∧ (encoderUnit d (mirror rm) x).r = (encoderUnit d rm (x ^^^ 0x8000000000000000#64)).r := by
    simp only [encoderUnit, f64Sign_xor_signMask, f64Exp_xor_signMask, f64Frac_xor_signMask]
    exact roundingUnit_mirror _ _ _ _ _ _
  obtain ⟨-, hebound, hrbound⟩ := encoderUnit_bounds hd (mirror rm) x
  rw [encodeF64_of_packed rm hd hnan' (hunsigned _), encodeF64_of_packed _ hd hnan (hunsigned _),
    f64Sign_xor_signMask, ← he, ← hr]
  exact patternFrom_not _ (hebound.trans_lt (maxE_lt d)) hrbound

/-! ## Negative inputs to an unsigned format (spec 43 R160, R161) -/

/-- The same format with a sign bit. -/
def Desc.withSign (d : Desc) : Desc := { d with S := 1 }

theorem inXR_withSign {d : Desc} (hd : d.InXR) : d.withSign.InXR := by
  obtain ⟨-, hd⟩ := hd
  exact ⟨le_rfl, hd⟩

/-- The sign bit is added in packing: the unit's fields do not depend on it. -/
theorem encoderUnit_withSign (d : Desc) (rm : RoundingMode) (x : Word64) :
    (encoderUnit d.withSign rm x).e = (encoderUnit d rm x).e
      ∧ (encoderUnit d.withSign rm x).r = (encoderUnit d rm x).r := ⟨rfl, rfl⟩

/-- A negative input rounds to −0 in the signed format exactly where both fields are 0. -/
theorem encodeF64_withSign_eq_negZero_iff {d : Desc} (hd : d.InXR) (rm : RoundingMode) {x : Word64}
    (hnan : f64IsNaN x = false) (hs : f64Sign x = true) :
    encodeF64 d.withSign rm x = d.signBit
      ↔ (encoderUnit d rm x).e = 0 ∧ (encoderUnit d rm x).r = 0 := by
  obtain ⟨he, hr⟩ := encoderUnit_withSign d rm x
  rw [encodeF64_of_packed rm (inXR_withSign hd) hnan nofun, hs, he, hr]
  show 2 ^ (d.E + d.M) + _ * 2 ^ d.M + _ = 2 ^ (d.E + d.M) ↔ _
  rw [Nat.add_assoc, Nat.add_eq_left, Nat.add_eq_zero_iff, Nat.mul_eq_zero,
    or_iff_left (Nat.two_pow_pos d.M).ne']

/-- Settles O39. -/
theorem unsignedNegativeInputs : Obligations.UnsignedNegativeInputs := by
  intro d x hd hS hnan hs
  have hrule := fun rm => encodeF64_of_unsigned_negative rm hnan hS hs
  refine ⟨(hrule _).trans (if_pos (.inl rfl)), (hrule _).trans (if_pos (.inr rfl)), fun rm hrm => ?_⟩
  have hrm' : ¬(rm = .truncate ∨ rm = .ceiling) := by rcases hrm with rfl | rfl | rfl <;> decide
  rw [hrule, unsignedNegative, if_neg hrm',
    if_congr (encodeF64_withSign_eq_negZero_iff hd rm hnan hs).symm rfl rfl]
  rfl

end Sys2Proof.Machine

/-! Rounding by value (spec 43 R158, R163): the mantissa that the encoder aligns lies on the same side of
every half ULP as the word's magnitude, so the increments are conditions on the word's value. -/

namespace Sys2Proof.Machine

/-! ## Lying on the same side of a grid -/

/-- `a` lies on the same side of each multiple of `g` as `b` does of that multiple scaled by `s`. -/
def SameSides (g s a b : Nat) : Prop :=
  ∀ t, (t * g ≤ a ↔ t * g * s ≤ b) ∧ (t * g < a ↔ t * g * s < b)

section sameSides
variable {g s a b : Nat}

theorem sameSides_of_mul_eq (hs : 0 < s) (h : a * s = b) : SameSides g s a b := by
  rintro t
  rw [← h]
  exact ⟨(Nat.mul_le_mul_right_iff hs).symm, (Nat.mul_lt_mul_right hs).symm⟩

theorem SameSides.scale (h : SameSides g s a b) {c : Nat} (hc : 0 < c) :
    SameSides g (s * c) a (b * c) := by
  intro t
  obtain ⟨hle, hlt⟩ := h t
  rw [← Nat.mul_assoc]
  exact ⟨hle.trans (Nat.mul_le_mul_right_iff hc).symm, hlt.trans (Nat.mul_lt_mul_right hc).symm⟩

/-- Two numbers below the first grid line need only be zero together. -/
theorem sameSides_of_lt (ha : a < g) (hb : b < g * s) (h : 0 < a ↔ 0 < b) : SameSides g s a b := by
  intro t
  cases t with
  | zero => simpa using h
  | succ t =>
    have hga : g ≤ (t + 1) * g := Nat.le_mul_of_pos_left g t.succ_pos
    have hgb : g * s ≤ (t + 1) * g * s := Nat.mul_le_mul_right s hga
    omega

end sameSides

/-- The sticky shift keeps the side of every even number: a lost bit makes the result odd. -/
theorem sameSides_shiftSticky {g : Nat} (hg : 2 ∣ g) (w k : Nat) :
    SameSides g (2 ^ k) (shiftSticky w k) w := by
  by_cases hrem : w % 2 ^ k = 0
  · obtain ⟨x, rfl⟩ : 2 ^ k ∣ w := Nat.dvd_of_mod_eq_zero hrem
    rw [Nat.mul_comm, shiftSticky_mul_two_pow]
    exact sameSides_of_mul_eq (Nat.two_pow_pos k) rfl
  · intro t
    obtain ⟨n, hn⟩ : 2 ∣ t * g := hg.mul_left t
    have hsticky : shiftSticky w k = w / 2 ^ k ||| 1 := by
      rw [shiftSticky, if_pos hrem, Nat.shiftRight_eq_div_pow]
    have hodd : (w / 2 ^ k ||| 1) % 2 = 1 := by simp
    have hhalf : (w / 2 ^ k ||| 1) / 2 = w / 2 ^ k / 2 := by
      simpa using Nat.or_div_two_pow (a := w / 2 ^ k) (b := 1) (n := 1)
    have hle : t * g ≤ w / 2 ^ k ↔ t * g * 2 ^ k ≤ w := Nat.le_div_iff_mul_le (Nat.two_pow_pos k)
    have hne : t * g * 2 ^ k ≠ w := by
      rintro rfl
      exact hrem (Nat.mul_mod_left _ _)
    rw [hsticky]
    omega

/-! ## The alignment keeps the side of every half ULP -/

/-- `1023 - B`, the distance of the format's exponents from binary64's, in XR (spec 42 R125). -/
def Desc.gap (d : Desc) : Nat := (-d.delta).toNat

theorem gap_eq {d : Desc} (hd : d.InXR) : (d.gap : Int) = 1023 - d.B := by
  obtain ⟨hB, -⟩ := delta_bounds hd
  rw [Desc.gap, Desc.delta, Config.nativeBias]
  omega

theorem magnitude_eq_mul (d : Desc) (ef mf : Nat) :
    magnitude d ef mf = ((if ef ≠ 0 then 2 ^ d.M else 0) + mf) * 2 ^ (ef - 1) := by
  by_cases h : ef = 0 <;> simp [magnitude, h]

/-- The significand with its implicit bit, at its exponent, is the binary64 magnitude. -/
theorem magnitude_binary64 (e0 m0 : Nat) :
    magnitude binary64Desc e0 m0 = fullSignificand e0 m0 * 2 ^ (e0 - 1) := magnitude_eq_mul _ _ _

/-- A word that has no implicit bit, or whose significand is shifted out as a whole, is below half of the
smallest value, and its mantissa is below the round bit. -/
theorem sameSides_of_small {d : Desc} (hd : d.InXR) {e0 m0 k : Nat} (hm : m0 < 2 ^ 52)
    (hk : (k : Int) = min (1 - rebias d e0) 53) (hsmall : e0 = 0 ∨ rebias d e0 < -52) :
    SameSides (2 ^ (d.sh - 1)) (2 ^ d.gap) (shiftSticky (fullSignificand e0 m0) k)
      (fullSignificand e0 m0 * 2 ^ (e0 - 1)) := by
  have hgap := gap_eq hd
  have hsh := sh_sub_one d
  have hdelta : d.delta = d.B - 1023 := rfl
  obtain ⟨-, -, ⟨hM1, hM⟩, hB, hxr⟩ := hd
  rw [rebias] at hk hsmall
  obtain ⟨n, hw, hnk, hngap⟩ : ∃ n, fullSignificand e0 m0 < 2 ^ n ∧ n ≤ d.sh - 1 + k
      ∧ n + (e0 - 1) ≤ d.sh - 1 + d.gap := by
    by_cases h0 : e0 = 0
    · exact ⟨52, by simpa [fullSignificand, h0] using hm, by omega, by omega⟩
    · exact ⟨53, fullSignificand_lt e0 hm, by omega, by omega⟩
  have hsides := sameSides_shiftSticky (dvd_pow_self 2 (by omega : d.sh - 1 ≠ 0)) (fullSignificand e0 m0) k
  obtain ⟨-, hzero⟩ := hsides 0
  obtain ⟨hone, -⟩ := hsides 1
  rw [Nat.one_mul] at hone
  refine sameSides_of_lt ?_ ?_ ?_
  · have hfit : fullSignificand e0 m0 < 2 ^ (d.sh - 1) * 2 ^ k := by
      rw [← pow_add]
      exact hw.trans_le (Nat.pow_le_pow_right (by decide) hnk)
    omega
  · calc fullSignificand e0 m0 * 2 ^ (e0 - 1)
      _ < 2 ^ n * 2 ^ (e0 - 1) := Nat.mul_lt_mul_of_pos_right hw (Nat.two_pow_pos _)
      _ ≤ 2 ^ (d.sh - 1) * 2 ^ d.gap := by
        rw [← pow_add, ← pow_add]
        exact Nat.pow_le_pow_right (by decide) hngap
  · rw [Nat.mul_pos_iff_of_pos_right (Nat.two_pow_pos _)]
    simpa using hzero

/-- The aligned mantissa, with its implicit bit, lies on the same side of every multiple of half an ULP as
the word's magnitude does: by the underflow path because the sticky bit is far below (spec 42 R126), by the
normal path because nothing is lost (R128). -/
theorem align_sameSides {d : Desc} (hd : d.InXR) (e0 : Nat) {m0 : Nat} (hm : m0 < 2 ^ 52) :
    SameSides (2 ^ (d.sh - 1)) (2 ^ ((align d e0 m0).2 - 1) * 2 ^ d.gap)
      (fullSignificand (align d e0 m0).2 (align d e0 m0).1) (magnitude binary64Desc e0 m0) := by
  have hgap := gap_eq hd
  have hsh := sh_sub_one d
  have hrebias : rebias d e0 = e0 + (d.B - 1023) := rfl
  rw [magnitude_binary64]
  rcases align_cases d e0 m0 with ⟨hneg, k, hk, heq⟩ | ⟨hpos, e, he, heq⟩ <;> rw [heq]
  · have hfull : ∀ mant, fullSignificand 0 mant = mant := fun mant => Nat.zero_add mant
    rw [hfull, Nat.zero_sub, pow_zero, Nat.one_mul]
    by_cases hsmall : e0 = 0 ∨ rebias d e0 < -52
    · exact sameSides_of_small hd hm hk hsmall
    · have hsplit : 2 ^ d.gap = 2 ^ k * 2 ^ (e0 - 1) := by
        rw [← pow_add]
        congr 1
        omega
      obtain ⟨-, -, ⟨-, hM⟩, -⟩ := hd
      rw [hsplit]
      exact (sameSides_shiftSticky (dvd_pow_self 2 (by omega)) _ k).scale (Nat.two_pow_pos _)
  · have hfull : fullSignificand e m0 = fullSignificand e0 m0 := by
      rw [fullSignificand, fullSignificand, if_pos (by omega), if_pos (by omega)]
    refine sameSides_of_mul_eq (Nat.mul_pos (Nat.two_pow_pos _) (Nat.two_pow_pos _)) ?_
    show fullSignificand e m0 * (2 ^ (e - 1) * 2 ^ d.gap) = _
    rw [hfull, ← pow_add]
    congr 2
    omega

/-! ## The line of the patterns' values -/

/-- The magnitude of the sign-0 pattern `p`, continued past the last pattern of the format. -/
def orderMagnitude (d : Desc) (p : Nat) : Nat := magnitude d (p / 2 ^ d.M) (p % 2 ^ d.M)

theorem orderMagnitude_of_fields {d : Desc} (e : Nat) {r : Nat} (hr : r < 2 ^ d.M) :
    orderMagnitude d (e * 2 ^ d.M + r) = magnitude d e r := by
  have hdiv : (e * 2 ^ d.M + r) / 2 ^ d.M = e := by
    rw [Nat.mul_comm, Nat.mul_add_div (Nat.two_pow_pos _), Nat.div_eq_of_lt hr, Nat.add_zero]
  rw [orderMagnitude, hdiv, Nat.mul_add_mod', Nat.mod_eq_of_lt hr]

/-- The next magnitude is one ULP away, within an exponent and into the next (spec 43 R156). -/
theorem orderMagnitude_succ {d : Desc} (e : Nat) {r : Nat} (hr : r < 2 ^ d.M) :
    orderMagnitude d (e * 2 ^ d.M + r + 1) = orderMagnitude d (e * 2 ^ d.M + r) + 2 ^ (e - 1) := by
  rw [orderMagnitude_of_fields e hr, magnitude_eq_mul, ← Nat.succ_mul, Nat.add_assoc]
  obtain hfull | hlt : r + 1 = 2 ^ d.M ∨ r + 1 < 2 ^ d.M := by omega
  · have hcarry := orderMagnitude_of_fields (d := d) (e + 1) (Nat.two_pow_pos _)
    rw [hfull, ← Nat.succ_mul, ← Nat.add_zero (_ * _), hcarry, magnitude_eq_mul, if_pos e.succ_ne_zero,
      Nat.succ_eq_add_one, Nat.add_assoc, hfull]
    cases e with
    | zero => simp
    | succ e =>
      rw [if_pos e.succ_ne_zero, Nat.add_sub_cancel, Nat.add_sub_cancel, pow_succ]
      ring
  · rw [orderMagnitude_of_fields e hlt, magnitude_eq_mul]
    rfl

/-- The value of the sign-0 pattern `p`, continued past the last pattern of the format. -/
def orderValue (d : Desc) (p : Nat) : ℚ := orderMagnitude d p * 2 ^ (1 - d.B - d.M)

/-- A pattern of sign 0 has the value of its place. -/
theorem patternValue_eq_orderValue {d : Desc} {p : Nat} (h : p < d.signBit) :
    patternValue d p = orderValue d p := patternValue_of_lt_signBit h

theorem orderValue_strictMono (d : Desc) : StrictMono (orderValue d) := fun _ _ h =>
  mul_lt_mul_of_pos_right (Nat.cast_lt.2 (magnitude_lt_of_pattern_lt h)) (zpow_pos two_pos _)

/-- Half an ULP at the exponent `e`. -/
def halfUlp (d : Desc) (e : Nat) : ℚ := 2 ^ (e - 1) * 2 ^ (-d.B - d.M)

theorem smallest_eq_two_mul (d : Desc) : (2 : ℚ) ^ (1 - d.B - d.M) = 2 * 2 ^ (-d.B - d.M) := by
  rw [← zpow_one_add₀ two_ne_zero]
  congr 1
  omega

theorem orderValue_succ {d : Desc} (e : Nat) {r : Nat} (hr : r < 2 ^ d.M) :
    orderValue d (e * 2 ^ d.M + r + 1) = orderValue d (e * 2 ^ d.M + r) + 2 * halfUlp d e := by
  rw [orderValue, orderValue, orderMagnitude_succ e hr, halfUlp, smallest_eq_two_mul]
  push_cast
  ring

theorem abs_f64Value (x : Word64) :
    |f64Value x| = magnitude binary64Desc (f64Exp x) (f64Frac x) * 2 ^ (-1074 : ℤ) := by
  have hsign : |signFactor (f64Sign x)| = 1 := by cases f64Sign x <;> simp [signFactor]
  rw [f64Value_eq_magnitude, abs_mul, abs_mul, hsign, one_mul, Nat.abs_cast,
    abs_of_pos (zpow_pos two_pos _)]

/-! ## Where a word lies between two patterns -/

/-- The mantissa that the encoder hands to the rounding unit (spec 42 R126, R128). -/
def alignedMant (d : Desc) (x : Word64) : Nat := (align d (f64Exp x) (f64Frac x)).1

/-- The exponent that the encoder hands to the rounding unit (spec 42 R126, R128). -/
def alignedExp (d : Desc) (x : Word64) : Nat := (align d (f64Exp x) (f64Frac x)).2

/-- The place of the word's magnitude with its dropped bits removed. -/
def lowerPlace (d : Desc) (x : Word64) : Nat :=
  alignedExp d x * 2 ^ d.M + retained (alignedMant d x) d.sh

/-- The place that the strategy rounds the word's magnitude to (spec 43 R155, R156). -/
def roundedPlace (d : Desc) (rm : RoundingMode) (x : Word64) : Nat :=
  lowerPlace d x + increment rm (alignedMant d x) d.sh (f64Sign x)

section bucket
variable {d : Desc} (hd : d.InXR) (x : Word64)
include hd

theorem retained_alignedMant_lt : retained (alignedMant d x) d.sh < 2 ^ d.M := by
  obtain ⟨hmant, -⟩ := align_bounds hd x
  obtain ⟨-, -, ⟨-, hM⟩, -⟩ := hd
  exact retained_lt (by omega) hmant

/-- Multiples of half an ULP, in units of the smallest positive binary64 value. -/
theorem natCast_mul_halfUlp (t e : Nat) :
    (t : ℚ) * halfUlp d e
      = (t * 2 ^ (d.sh - 1) * (2 ^ (e - 1) * 2 ^ d.gap) : Nat) * 2 ^ (-1074 : ℤ) := by
  have hgap := gap_eq hd
  have hsh := sh_sub_one d
  obtain ⟨-, -, ⟨-, hM⟩, -⟩ := hd
  have hunit : (2 : ℚ) ^ (-d.B - d.M) = 2 ^ (d.sh - 1) * 2 ^ d.gap * 2 ^ (-1074 : ℤ) := by
    rw [← zpow_natCast, ← zpow_natCast, ← zpow_add₀ two_ne_zero, ← zpow_add₀ two_ne_zero]
    congr 1
    omega
  rw [halfUlp, hunit]
  generalize (2 : ℚ) ^ (-1074 : ℤ) = smallest
  push_cast
  ring

/-- The dropped bits measure, in units of half an ULP, how far the word's magnitude is above its lower
place. -/
theorem dropped_compare (c : Nat) :
    (c * 2 ^ (d.sh - 1) ≤ dropped (alignedMant d x) d.sh
        ↔ orderValue d (lowerPlace d x) + c * halfUlp d (alignedExp d x) ≤ |f64Value x|)
      ∧ (c * 2 ^ (d.sh - 1) < dropped (alignedMant d x) d.sh
        ↔ orderValue d (lowerPlace d x) + c * halfUlp d (alignedExp d x) < |f64Value x|) := by
  have hq := retained_alignedMant_lt hd x
  have hsides := align_sameSides hd (f64Exp x) (f64Frac_lt x)
  rw [← alignedMant, ← alignedExp] at hsides
  have hmul := natCast_mul_halfUlp hd
  obtain ⟨-, -, ⟨-, hM⟩, -⟩ := hd
  have hsplit := retained_mul_add_dropped (alignedMant d x) d.sh
  have hsh := two_mul_two_pow_sub_one (one_le_sh hM)
  rw [lowerPlace]
  generalize alignedMant d x = mant at hq hsides hsplit ⊢
  generalize alignedExp d x = e at hsides ⊢
  obtain ⟨m, hm⟩ : ∃ m, m = (if e ≠ 0 then 2 ^ d.M else 0) + retained mant d.sh := ⟨_, rfl⟩
  have hfull : fullSignificand e mant = 2 * m * 2 ^ (d.sh - 1) + dropped mant d.sh := by
    have hone := two_pow_M_mul_two_pow_sh (d := d) (by omega)
    rw [fullSignificand, hm, ← hone, ← hsh]
    nth_rw 1 [← hsplit]
    rw [← hsh]
    split <;> ring
  have hplace : orderValue d (e * 2 ^ d.M + retained mant d.sh) = (2 * m : Nat) * halfUlp d e := by
    rw [orderValue, orderMagnitude_of_fields e hq, magnitude_eq_mul, ← hm, halfUlp,
      smallest_eq_two_mul]
    push_cast
    ring
  obtain ⟨hle, hlt⟩ := hsides (2 * m + c)
  rw [hfull, Nat.add_mul, Nat.add_le_add_iff_left, ← Nat.add_mul] at hle
  rw [hfull, Nat.add_mul, Nat.add_lt_add_iff_left, ← Nat.add_mul] at hlt
  have hpos : (0 : ℚ) < 2 ^ (-1074 : ℤ) := zpow_pos two_pos _
  rw [hplace, ← add_mul, ← Nat.cast_add, hmul, abs_f64Value, mul_le_mul_iff_left₀ hpos,
    mul_lt_mul_iff_left₀ hpos, Nat.cast_le, Nat.cast_lt]
  exact ⟨hle, hlt⟩

/-- The next place is one ULP above the lower one. -/
theorem orderValue_lowerPlace_succ :
    orderValue d (lowerPlace d x + 1)
      = orderValue d (lowerPlace d x) + 2 * halfUlp d (alignedExp d x) :=
  orderValue_succ _ (retained_alignedMant_lt hd x)

theorem orderValue_lowerPlace_le : orderValue d (lowerPlace d x) ≤ |f64Value x| := by
  simpa using (dropped_compare hd x 0).1

theorem lt_orderValue_lowerPlace_succ : |f64Value x| < orderValue d (lowerPlace d x + 1) := by
  obtain ⟨hle, -⟩ := dropped_compare hd x 2
  rw [orderValue_lowerPlace_succ hd]
  refine not_le.1 fun h => ?_
  obtain ⟨-, -, ⟨-, hM⟩, -⟩ := hd
  have hlt := dropped_lt (alignedMant d x) d.sh
  rw [← two_mul_two_pow_sub_one (one_le_sh hM)] at hlt
  exact absurd hlt (Nat.not_lt.2 (hle.2 h))

theorem dropped_ne_zero_iff :
    dropped (alignedMant d x) d.sh ≠ 0 ↔ orderValue d (lowerPlace d x) < |f64Value x| := by
  simpa [Nat.pos_iff_ne_zero] using (dropped_compare hd x 0).2

/-- Half an ULP or more is dropped from the midpoint on. -/
theorem half_le_dropped_iff :
    2 ^ (d.sh - 1) ≤ dropped (alignedMant d x) d.sh
      ↔ orderValue d (lowerPlace d x) + orderValue d (lowerPlace d x + 1) ≤ 2 * |f64Value x| := by
  obtain ⟨hle, -⟩ := dropped_compare hd x 1
  rw [Nat.one_mul] at hle
  rw [hle, orderValue_lowerPlace_succ hd, Nat.cast_one]
  constructor <;> intro h <;> linarith

/-- More than half an ULP is dropped above the midpoint. -/
theorem half_lt_dropped_iff :
    2 ^ (d.sh - 1) < dropped (alignedMant d x) d.sh
      ↔ orderValue d (lowerPlace d x) + orderValue d (lowerPlace d x + 1) < 2 * |f64Value x| := by
  obtain ⟨-, hlt⟩ := dropped_compare hd x 1
  rw [Nat.one_mul] at hlt
  rw [hlt, orderValue_lowerPlace_succ hd, Nat.cast_one]
  constructor <;> intro h <;> linarith

end bucket

/-! ## The place each mode rounds to (spec 43 R163) -/

/-- The directed mode that rounds the magnitudes of a sign up; its mirror rounds them down. -/
def awayMode (s0 : Bool) : RoundingMode := if s0 then .floor else .ceiling

theorem staysFinite_awayMode (s0 : Bool) : staysFinite (awayMode s0) s0 = false := by
  cases s0 <;> rfl

theorem staysFinite_mirror_awayMode (s0 : Bool) : staysFinite (mirror (awayMode s0)) s0 = true := by
  cases s0 <;> rfl

section roundedPlace
variable {d : Desc} (x : Word64)

theorem roundedPlace_truncate : roundedPlace d .truncate x = lowerPlace d x := rfl

theorem roundedPlace_mirror_awayMode :
    roundedPlace d (mirror (awayMode (f64Sign x))) x = lowerPlace d x := by
  cases hs : f64Sign x <;> simp [roundedPlace, awayMode, mirror, increment_ceiling, increment_floor, hs]

/-- A place goes up by an increment of 1. -/
theorem roundedPlace_of_increment {rm : RoundingMode} {p : Prop} [Decidable p]
    (h : increment rm (alignedMant d x) d.sh (f64Sign x) = if p then 1 else 0) :
    roundedPlace d rm x = if p then lowerPlace d x + 1 else lowerPlace d x := by
  rw [roundedPlace, h]
  split <;> rfl

variable (hd : d.InXR)
include hd

theorem roundedPlace_awayMode :
    roundedPlace d (awayMode (f64Sign x)) x
      = if orderValue d (lowerPlace d x) < |f64Value x| then lowerPlace d x + 1 else lowerPlace d x := by
  refine roundedPlace_of_increment x ?_
  rw [if_congr (dropped_ne_zero_iff hd x).symm rfl rfl]
  cases hs : f64Sign x <;> simp [awayMode, increment_ceiling, increment_floor]

theorem roundedPlace_nearestAway :
    roundedPlace d .nearestAway x
      = if orderValue d (lowerPlace d x) + orderValue d (lowerPlace d x + 1) ≤ 2 * |f64Value x|
        then lowerPlace d x + 1 else lowerPlace d x := by
  refine roundedPlace_of_increment x ?_
  have hhalf := half_le_dropped_iff hd x
  obtain ⟨-, -, ⟨-, hM⟩, -⟩ := hd
  rw [increment_nearestAway_eq_ite_le _ (one_le_sh hM), if_congr hhalf rfl rfl]

/-- The retained part is odd exactly where its place is. -/
theorem retained_alignedMant_mod_two : retained (alignedMant d x) d.sh % 2 = lowerPlace d x % 2 := by
  obtain ⟨-, -, ⟨hM, -⟩, -⟩ := hd
  have heven : 2 ∣ alignedExp d x * 2 ^ d.M := (dvd_pow_self 2 (by omega)).mul_left _
  rw [lowerPlace]
  omega

theorem roundedPlace_nearestEven :
    roundedPlace d .nearestEven x
      = if orderValue d (lowerPlace d x) + orderValue d (lowerPlace d x + 1) < 2 * |f64Value x|
          ∨ orderValue d (lowerPlace d x) + orderValue d (lowerPlace d x + 1) = 2 * |f64Value x|
            ∧ lowerPlace d x % 2 = 1
        then lowerPlace d x + 1 else lowerPlace d x := by
  refine roundedPlace_of_increment x ?_
  have habove := half_lt_dropped_iff hd x
  have htie : 2 ^ (d.sh - 1) = dropped (alignedMant d x) d.sh
      ↔ orderValue d (lowerPlace d x) + orderValue d (lowerPlace d x + 1) = 2 * |f64Value x| := by
    rw [eq_iff_le_not_lt, eq_iff_le_not_lt, half_le_dropped_iff hd x, habove]
  have hodd := retained_alignedMant_mod_two x hd
  obtain ⟨-, -, ⟨-, hM⟩, -⟩ := hd
  rw [increment_nearestEven_eq_ite_lt _ (one_le_sh hM), hodd,
    if_congr (or_congr habove (and_congr_left' htie)) rfl rfl]

end roundedPlace

/-! ## From the place to the pattern (spec 43 R156, R157) -/

/-- The overflow policy of a finite source on places: from +Inf on, the largest finite pattern or +Inf. -/
def boundedPlace (d : Desc) (rm : RoundingMode) (s0 : Bool) (n : Nat) : Nat :=
  if n < d.posInf then n else if staysFinite rm s0 = true then d.maxFinite else d.posInf

section boundedPlace
variable {d : Desc} {rm : RoundingMode} {s0 : Bool} {n : Nat}

theorem boundedPlace_of_lt (h : n < d.posInf) : boundedPlace d rm s0 n = n := if_pos h

theorem boundedPlace_of_posInf_le (h : d.posInf ≤ n) (hinf : staysFinite rm s0 = false) :
    boundedPlace d rm s0 n = d.posInf := by
  rw [boundedPlace, if_neg (Nat.not_lt.2 h), hinf, if_neg Bool.false_ne_true]

theorem boundedPlace_of_maxFinite_le (h : d.maxFinite ≤ n) (hfin : staysFinite rm s0 = true) :
    boundedPlace d rm s0 n = d.maxFinite := by
  rw [boundedPlace, if_pos hfin]
  split
  next hlt => exact (Nat.le_sub_one_of_lt hlt).antisymm h
  next => rfl

end boundedPlace

/-- A full mantissa carries into the exponent without a change of place. -/
theorem place_carry (d : Desc) (e r : Nat) :
    (carry d e r).1 * 2 ^ d.M + (carry d e r).2 = e * 2 ^ d.M + r := by
  rcases carry_cases d e r with ⟨rfl, h⟩ | ⟨-, h⟩ <;> rw [h]
  exact Nat.succ_mul _ _

/-- On a finite source the overflow policy bounds the place. -/
theorem place_overflow {d : Desc} (hE : 1 ≤ d.E) (rm : RoundingMode) (s0 : Bool) {e0 : Nat}
    (he0 : e0 ≠ 2047) (e : Nat) {r : Nat} (hr : r < 2 ^ d.M) :
    (overflow d rm s0 e0 e r).1 * 2 ^ d.M + (overflow d rm s0 e0 e r).2
      = boundedPlace d rm s0 (e * 2 ^ d.M + r) := by
  have hpast : d.maxE ≤ e → d.posInf ≤ e * 2 ^ d.M + r := fun h =>
    (Nat.mul_le_mul_right _ h).trans (Nat.le_add_right _ _)
  rcases overflow_cases d rm s0 e0 e r with ⟨hlt, ho⟩ | ⟨hle, -, hfin, ho⟩ | ⟨hle, hinf, ho⟩ <;> rw [ho]
  · have hbelow : e * 2 ^ d.M + r < d.posInf :=
      calc e * 2 ^ d.M + r
        _ < (e + 1) * 2 ^ d.M := by rw [Nat.succ_mul]; omega
        _ ≤ d.posInf := Nat.mul_le_mul_right _ hlt
    rw [boundedPlace_of_lt hbelow]
  · rw [boundedPlace_of_maxFinite_le ((maxFinite_lt_posInf hE).le.trans (hpast hle)) hfin,
      maxFinite_eq hE]
  · rw [boundedPlace_of_posInf_le (hpast hle) (hinf.resolve_left he0)]
    rfl

/-- The unit's fields within ENC: the carried pair under the overflow policy. -/
theorem encoderUnit_fields (d : Desc) (rm : RoundingMode) (x : Word64) :
    let carried := carry d (alignedExp d x)
      (retained (alignedMant d x) d.sh + increment rm (alignedMant d x) d.sh (f64Sign x))
    (encoderUnit d rm x).e = (overflow d rm (f64Sign x) (f64Exp x) carried.1 carried.2).1
      ∧ (encoderUnit d rm x).r = (overflow d rm (f64Sign x) (f64Exp x) carried.1 carried.2).2 :=
  ⟨rfl, rfl⟩

/-- ENC of a finite word: the bounded place that its mode rounds to, under its sign bit. -/
theorem encodeF64_of_finite {d : Desc} (hd : d.InXR) (rm : RoundingMode) {x : Word64}
    (hfin : f64IsFinite x = true) (hs : d.S = 1 ∨ f64Sign x = false) :
    encodeF64 d rm x
      = (if f64Sign x then d.signBit else 0) + boundedPlace d rm (f64Sign x) (roundedPlace d rm x) := by
  have he0 : f64Exp x < 2047 := of_decide_eq_true hfin
  have hnan : f64IsNaN x = false := by
    rw [f64IsNaN, Config.nativeMaxExponent, decide_eq_false he0.ne, Bool.false_and]
  have hunsigned : d.S = 0 → f64Sign x = false := fun h => hs.resolve_left (by omega)
  have hq := retained_alignedMant_lt hd x
  have hinc := increment_le_one rm (alignedMant d x) d.sh (f64Sign x)
  obtain ⟨-, hr⟩ := carry_ranges (d := d) (e := alignedExp d x)
    (r := retained (alignedMant d x) d.sh + increment rm (alignedMant d x) d.sh (f64Sign x)) (by omega)
  rw [encodeF64_of_packed rm hd hnan hunsigned, patternFrom, Nat.add_assoc]
  obtain ⟨-, ⟨hE, -⟩, -⟩ := hd
  obtain ⟨hue, hur⟩ := encoderUnit_fields d rm x
  rw [hue, hur, place_overflow hE rm (f64Sign x) he0.ne _ hr, place_carry, roundedPlace, lowerPlace,
    Nat.add_assoc]
  rfl

/-! ## Within a bucket (spec 43 R163) -/

/-- Settles O36: a word strictly between two patterns has the lower one as its lower place. -/
theorem roundingWithinABucket : Obligations.RoundingWithinABucket := by
  intro d i x hd hi (hlast : i < d.posInf) hfin hs hlo hhi
  have hsign := hlast.trans (posInf_lt_signBit d)
  rw [patternValue_eq_orderValue (by omega : i - 1 < d.signBit)] at hlo ⊢
  rw [patternValue_eq_orderValue hsign] at hhi ⊢
  have habs : |f64Value x| = f64Value x := by
    rw [f64Value_eq_magnitude, hs, abs_of_nonneg]
    simp only [signFactor, Bool.false_eq_true, if_false, one_mul]
    positivity
  have hle := orderValue_lowerPlace_le hd x
  have hlt := lt_orderValue_lowerPlace_succ hd x
  rw [habs] at hle hlt
  have hplace : lowerPlace d x = i - 1 := by
    have hbelow := (orderValue_strictMono d).lt_iff_lt.1 (hle.trans_lt hhi)
    have habove := (orderValue_strictMono d).lt_iff_lt.1 (hlo.trans hlt)
    omega
  have hnext : i - 1 + 1 = i := Nat.sub_add_cancel hi
  have hencode (rm : RoundingMode) : encodeF64 d rm x = roundedPlace d rm x := by
    have hinc := increment_le_one rm (alignedMant d x) d.sh (f64Sign x)
    rw [encodeF64_of_finite hd rm hfin (.inr hs), boundedPlace_of_lt, hs]
    · simp
    · rw [roundedPlace, hplace]
      omega
  have hdown := roundedPlace_mirror_awayMode (d := d) x
  have hup := roundedPlace_awayMode x hd
  rw [hs] at hdown hup
  have haway := roundedPlace_nearestAway x hd
  have heven := roundedPlace_nearestEven x hd
  rw [hplace, habs, hnext] at hup haway heven
  simp only [hencode]
  refine ⟨hplace, hdown.trans hplace, hup.trans (if_pos hlo), fun h => ⟨?_, ?_⟩, fun h => ⟨?_, ?_⟩,
    fun h => ⟨?_, ?_⟩⟩
  · rw [heven, if_neg (fun hc => hc.elim h.not_gt fun ht => h.ne' ht.1)]
  · rw [haway, if_neg h.not_ge]
  · rw [heven, if_pos (.inl h)]
  · rw [haway, if_pos h.le]
  · rw [haway, if_pos h.ge]
  · rw [heven]
    refine if_congr ?_ rfl rfl
    simp only [h, lt_irrefl, true_and, false_or]
    omega

/-! ## Past the largest finite pattern (spec 43 R158) -/

/-- The threshold is half an ULP above the largest finite pattern. -/
theorem overflowThreshold_eq {d : Desc} (hd : d.InXR) :
    overflowThreshold d = orderValue d d.maxFinite + halfUlp d (d.maxE - 1) := by
  obtain ⟨-, ⟨hE, -⟩, -⟩ := hd
  have hpos := maxE_pos hE
  have hfrac : ((2 ^ d.M - 1 : Nat) : ℚ) = 2 ^ d.M - 1 := by
    rw [Nat.cast_pred (Nat.two_pow_pos _)]
    push_cast
    rfl
  rw [orderValue, maxFinite_eq hE, orderMagnitude_of_fields _ (Nat.sub_lt (Nat.two_pow_pos _) Nat.one_pos),
    magnitude_eq_mul, smallest_eq_two_mul, halfUlp, overflowThreshold]
  by_cases htwo : 2 ≤ d.maxE
  · have hexp : (2 : ℚ) ^ ((d.maxE : ℤ) - 2 - d.B - d.M)
        = 2 ^ (d.maxE - 1 - 1) * 2 ^ (-d.B - d.M) := by
      rw [← zpow_natCast, ← zpow_add₀ two_ne_zero]
      congr 1
      omega
    rw [if_pos htwo, if_pos (by omega), hexp]
    push_cast [hfrac]
    ring
  · have hone : d.maxE = 1 := by omega
    rw [if_neg htwo, hone, if_neg (by decide)]
    push_cast [hfrac]
    ring

/-- The threshold is the midpoint between the largest finite pattern and +Inf's place. -/
theorem two_mul_overflowThreshold {d : Desc} (hd : d.InXR) :
    2 * overflowThreshold d = orderValue d d.maxFinite + orderValue d (d.maxFinite + 1) := by
  rw [overflowThreshold_eq hd]
  obtain ⟨-, ⟨hE, -⟩, -⟩ := hd
  rw [maxFinite_eq hE, orderValue_succ _ (Nat.sub_lt (Nat.two_pow_pos _) Nat.one_pos)]
  ring

section pastRange
variable {d : Desc} (hd : d.InXR) {x : Word64}
include hd

theorem maxFinite_add_one : d.maxFinite + 1 = d.posInf := by
  obtain ⟨-, ⟨hE, -⟩, -⟩ := hd
  exact Nat.sub_add_cancel (posInf_pos hE)

/-- A pattern with an all-ones significand is odd. -/
theorem maxFinite_odd : d.maxFinite % 2 = 1 := by
  have hmax := maxFinite_add_one hd
  obtain ⟨-, -, ⟨hM, -⟩, -⟩ := hd
  have heven : 2 ∣ d.posInf := (dvd_pow_self 2 (by omega)).mul_left _
  omega

variable (hpast : patternValue d d.maxFinite < |f64Value x|)
include hpast

theorem orderValue_maxFinite_lt : orderValue d d.maxFinite < |f64Value x| := by
  have hmax := maxFinite_add_one hd
  have hinf := posInf_lt_signBit d
  rwa [patternValue_eq_orderValue (by omega)] at hpast

theorem maxFinite_le_lowerPlace : d.maxFinite ≤ lowerPlace d x :=
  Nat.le_of_lt_succ ((orderValue_strictMono d).lt_iff_lt.1
    ((orderValue_maxFinite_lt hd hpast).trans (lt_orderValue_lowerPlace_succ hd x)))

/-- A mode that goes up from the largest finite pattern's place ends at +Inf's place or past it. -/
theorem posInf_le_roundedPlace {rm : RoundingMode} {p : Prop} [Decidable p]
    (h : roundedPlace d rm x = if p then lowerPlace d x + 1 else lowerPlace d x)
    (hp : lowerPlace d x = d.maxFinite → p) : d.posInf ≤ roundedPlace d rm x := by
  have hle := maxFinite_le_lowerPlace hd hpast
  have hmax := maxFinite_add_one hd
  rw [h]
  by_cases heq : lowerPlace d x = d.maxFinite
  · rw [if_pos (hp heq)]
    omega
  · split <;> omega

/-- Below the threshold the lower place is the largest finite pattern's. -/
theorem lowerPlace_of_lt_threshold (h : |f64Value x| < overflowThreshold d) :
    lowerPlace d x = d.maxFinite := by
  have hle := orderValue_lowerPlace_le hd x
  have hmid := two_mul_overflowThreshold hd
  have hmono := orderValue_strictMono d (Nat.lt_succ_self d.maxFinite)
  have hlt : orderValue d (lowerPlace d x) < orderValue d (d.maxFinite + 1) := by linarith
  exact (Nat.le_of_lt_succ ((orderValue_strictMono d).lt_iff_lt.1 hlt)).antisymm
    (maxFinite_le_lowerPlace hd hpast)

end pastRange

/-- Settles O37: the lower place is the largest finite pattern's or past it, so a mode that keeps it or stays
finite gives that pattern, and a mode that goes up gives infinity. -/
theorem overflowOutcomes : Obligations.OverflowOutcomes := by
  intro d x up hd hs hup hfin hpast
  obtain rfl : up = awayMode (f64Sign x) := hup
  have hmid := two_mul_overflowThreshold hd
  have hlower := maxFinite_le_lowerPlace hd hpast
  have haway := roundedPlace_nearestAway x hd
  have heven := roundedPlace_nearestEven x hd
  simp only [encodeF64_of_finite hd _ hfin hs, Nat.add_right_inj]
  refine ⟨?_, ?_, ?_, fun h => ⟨?_, ?_⟩, fun h => ?_⟩
  · exact boundedPlace_of_maxFinite_le hlower rfl
  · refine boundedPlace_of_maxFinite_le ?_ (staysFinite_mirror_awayMode _)
    rwa [roundedPlace_mirror_awayMode]
  · refine boundedPlace_of_posInf_le ?_ (staysFinite_awayMode _)
    exact posInf_le_roundedPlace hd hpast (roundedPlace_awayMode x hd)
      fun heq => heq ▸ orderValue_maxFinite_lt hd hpast
  · refine boundedPlace_of_posInf_le (posInf_le_roundedPlace hd hpast heven fun heq => ?_) rfl
    rw [heq, ← hmid]
    rcases h.lt_or_eq with hlt | htie
    · exact .inl (by linarith)
    · exact .inr ⟨by linarith, maxFinite_odd hd⟩
  · refine boundedPlace_of_posInf_le (posInf_le_roundedPlace hd hpast haway fun heq => ?_) rfl
    rw [heq, ← hmid]
    linarith
  · have heq := lowerPlace_of_lt_threshold hd hpast h
    have hlt : d.maxFinite < d.posInf := by
      rw [← maxFinite_add_one hd]
      exact Nat.lt_succ_self _
    rw [heq, ← hmid, if_neg (by linarith)] at haway
    rw [heq, ← hmid, if_neg] at heven
    · rw [haway, heven]
      exact ⟨boundedPlace_of_lt hlt, boundedPlace_of_lt hlt⟩
    · rintro (habove | ⟨htie, -⟩) <;> linarith

end Sys2Proof.Machine

/-! How a request ends (spec 60 R183, R195): the refusal outside XR, for the commands that need the exact
range and for no other request, and else one response of status 0, 1 or 2. -/

namespace Sys2Proof.Machine

/-! ## The refusal (spec 40 R89; 60 R183) -/

/-- A command that needs the exact range, and goes on to a next state inside it, is refused exactly on a
legal descriptor outside XR: an illegal one gives its error response (spec 60 R184). -/
theorem withExactRange_refused_iff (f : FmtArgs) (s : State) {k : Desc → Outcome}
    (hk : ∀ d, ∃ t, k d = .next t) :
    withExactRange f s k = .refused .unsupportedRange
      ↔ f.Legal ∧ 1022 < effectiveBias f + f.significandBits := by
  rcases withExactRange_cases f s k with ⟨err, hv, e⟩ | ⟨d, hv, hx, e⟩ | ⟨d, hv, hx, e⟩ <;> rw [e]
  · refine iff_of_false nofun fun ⟨hlegal, _⟩ => ?_
    rw [validate_of_legal hlegal] at hv
    cases hv
  · have hlegal := legal_of_validate hv
    exact iff_of_true rfl ⟨hlegal, not_le.1 fun hle => not_exact_of_validate hv hx ⟨hlegal, hle⟩⟩
  · obtain ⟨t, ht⟩ := hk d
    rw [ht]
    exact iff_of_false nofun fun ⟨_, hlt⟩ => hlt.not_ge (exact_of_validate hv hx).2

/-- CHKFMT does not need the exact range (spec 40 R90). -/
theorem exists_execChkfmt_next (f : FmtArgs) (s : State) : ∃ t, exec (.chkfmt f) s = .next t := by
  rcases withDescriptor_cases f s fun d => .next (s.respondOk (summary d)) with
    ⟨err, -, e⟩ | ⟨d, -, e⟩
  · exact ⟨_, e⟩
  · exact ⟨_, e⟩

/-- Settles O12: DEC and the six ENC commands answer a next state wherever the check lets them go on, so the
check alone decides the refusal. -/
theorem outsideXrOnlyEncAndDecAreRefused : Obligations.OutsideXrOnlyEncAndDecAreRefused := by
  refine fun f x p s => ⟨fun i hi => ?_, exists_execChkfmt_next f s⟩
  simp only [encCommands, List.mem_cons, List.not_mem_nil, or_false] at hi
  rcases hi with rfl | rfl | rfl | rfl | rfl | rfl | rfl <;>
    exact withExactRange_refused_iff f s fun d => ⟨_, rfl⟩

/-! ## One outcome for each request (spec 60 R195) -/

theorem op_of_outsideXR {r : Request} (nanFrac : Fraction) (h : r.OutsideXR) :
    op r nanFrac = .error .unsupportedRange := by
  obtain ⟨hc, h0, hlegal, hexact⟩ := h
  have hv := validate_of_legal hlegal
  exact op_of_outside_xr nanFrac hc h0 hv
    (Bool.eq_false_iff.2 fun hx => hexact (exact_of_validate hv hx))

/-- Status 3 is never produced (spec 10 R26). -/
theorem status_cases_of_sound {rsp : Response} (h : rsp.Sound) :
    rsp.status = 0#2 ∨ rsp.status = 1#2 ∨ rsp.status = 2#2 := by
  obtain ⟨h3, -, -⟩ := h
  have hall : ∀ b : BitVec 2, b ≠ 3#2 → b = 0#2 ∨ b = 1#2 ∨ b = 2#2 := by decide
  exact hall _ h3

/-- Settles O58: the step answers as `op`, which refuses a request outside XR and has a sound response for
every other. -/
theorem everyRequestEndsInOneOutcome : Obligations.EveryRequestEndsInOneOutcome := by
  intro s r rest hu hq
  refine ⟨fun hout => ?_, fun hin => ?_⟩
  · rcases step_answersAsOp hu hq with ⟨ref, hop, e⟩ | ⟨rsp, n, hop, -⟩ <;>
      rw [op_of_outsideXR _ hout] at hop <;> cases hop
    exact e
  · obtain ⟨rsp, hop⟩ := exists_op_ok (requestFraction s.nanDraws r) hin
    obtain ⟨t, hstep, -, -, hresp⟩ := step_next_of_op hu hq hop
    exact ⟨t, rsp, hstep, hresp, status_cases_of_sound (op_sound hop)⟩

end Sys2Proof.Machine

/-! Reset and hazards (spec 70): the state after reset, the requests that a reset discards, and that a
request is answered alike however often and wherever it is issued, but for the fraction of a NaN of DEC. -/

namespace Sys2Proof.Machine

/-! ## Reset (spec 70 R200, R202) -/

/-- Settles O53: after reset there is no response and no unit output that the invariant could speak of. -/
theorem resetMeetsTheInvariant : Obligations.ResetMeetsTheInvariant := by
  have hresp : State.reset.ResponsesSound := List.forall_mem_nil _
  have hout : State.reset.UnitOutputSound := nofun
  exact ⟨⟨hresp, hout⟩, rfl, rfl, rfl, rfl, rfl⟩

/-- A block with nothing to take up stays as it is (notes/assumptions/4.md). -/
theorem step_of_idle {s : State} (hu : s.unitIn = none) (hq : s.inFlight = []) : step s = .next s := by
  rw [step, takeInput_of_idle hu hq]

theorem run_of_idle {s : State} (hu : s.unitIn = none) (hq : s.inFlight = []) (n : Nat) :
    Host.Core.run Sys2Proof.core n s = .next s := by
  induction n with
  | zero => rfl
  | succ n ih => rw [run_succ_of_step (step_of_idle hu hq), ih]

/-- Settles O54: a reset leaves an idle block, and an idle block stays idle. -/
theorem resetDiscardsRequestsInFlight : Obligations.ResetDiscardsRequestsInFlight := fun s =>
  ⟨s.applyReset_inFlight, s.applyReset_responses,
    run_of_idle s.applyReset_unitIn s.applyReset_inFlight⟩

/-! ## The same request again (spec 70 R201, R205) -/

/-- Two responses to the request `r` agree: the same status, and the same `r` unless both are the NaN of a
DEC, with the same sign (spec 70 R205). -/
def AgreeButNanFraction (r : Request) (rsp₁ rsp₂ : Response) : Prop :=
  rsp₁.status = rsp₂.status
    ∧ (rsp₁.r = rsp₂.r
      ∨ (r.cmd = 0x02#8 ∧ rsp₁.status = 0#2 ∧ f64IsNaN rsp₁.r = true ∧ f64IsNaN rsp₂.r = true
        ∧ f64Sign rsp₁.r = f64Sign rsp₂.r))

theorem AgreeButNanFraction.refl (r : Request) (rsp : Response) : AgreeButNanFraction r rsp rsp :=
  ⟨rfl, .inl rfl⟩

section fractions
variable {r : Request} {n₁ n₂ : Fraction}

/-- No command but DEC reads the fraction (spec 20 R43). -/
theorem op_eq_of_not_dec (h2 : r.cmd ≠ 0x02#8) : op r n₁ = op r n₂ := by
  simp only [op, if_neg h2]

/-- DEC of two draws gives two NaNs of the pattern's sign, or the same word (spec 41 R106). -/
theorem decodePattern_agree (d : Desc) (p : Nat) (h₁ : n₁ ≠ 0#52) (h₂ : n₂ ≠ 0#52)
    (hc : r.cmd = 0x02#8) :
    AgreeButNanFraction r ⟨0#2, decodePattern d p n₁⟩ ⟨0#2, decodePattern d p n₂⟩ := by
  by_cases hn : classify d p = .nan
  · rw [decodePattern_of_nan n₁ hn, decodePattern_of_nan n₂ hn]
    exact ⟨rfl, .inr ⟨hc, rfl, f64IsNaN_f64_of_frac_ne_zero _ h₁, f64IsNaN_f64_of_frac_ne_zero _ h₂,
      (f64Sign_f64 ..).trans (f64Sign_f64 ..).symm⟩⟩
  · rw [decodePattern_of_ne_nan n₁ hn, decodePattern_of_ne_nan n₂ hn]
    exact .refl r _

/-- Whether a request has a response does not depend on the draw, and its responses agree. -/
theorem op_agree {rsp₁ : Response} (h₁ : n₁ ≠ 0#52) (h₂ : n₂ ≠ 0#52) (h : op r n₁ = .ok rsp₁) :
    ∃ rsp₂, op r n₂ = .ok rsp₂ ∧ AgreeButNanFraction r rsp₁ rsp₂ := by
  by_cases hc : r.cmd = 0x02#8
  swap
  · exact ⟨rsp₁, (op_eq_of_not_dec hc).trans h, .refl r rsp₁⟩
  have hl : r.cmd ∈ legalCommands := by rw [hc]; decide
  have h0 : r.cmd ≠ 0x00#8 := by rw [hc]; decide
  cases hv : validate r.fmt.read with
  | error err =>
    rw [op_of_invalidFormat n₁ hl hv] at h
    cases h
    exact ⟨_, op_of_invalidFormat n₂ hl hv, .refl r _⟩
  | ok d =>
    cases hx : d.xr with
    | false => rw [op_of_outside_xr n₁ hl h0 hv hx] at h; cases h
    | true =>
      rw [op_of_dec n₁ hc hv hx] at h
      cases h
      exact ⟨_, op_of_dec n₂ hc hv hx, decodePattern_agree d _ h₁ h₂ hc⟩

end fractions

/-- Two blocks with the same oldest request: if one answers it, so does the other, with a response that
agrees, and the requests behind it stay. -/
theorem step_agree {s₁ s₂ t₁ : State} {r : Request} {rest₁ rest₂ : List Request}
    (hu₁ : s₁.unitIn = none) (hu₂ : s₂.unitIn = none)
    (hq₁ : s₁.inFlight = r :: rest₁) (hq₂ : s₂.inFlight = r :: rest₂) (h : step s₁ = .next t₁) :
    ∃ (rsp₁ rsp₂ : Response) (t₂ : State), step s₂ = .next t₂
      ∧ t₁.responses = s₁.responses ++ [rsp₁] ∧ t₂.responses = s₂.responses ++ [rsp₂]
      ∧ t₁.inFlight = rest₁ ∧ t₂.inFlight = rest₂ ∧ AgreeButNanFraction r rsp₁ rsp₂ := by
  rcases step_answersAsOp hu₁ hq₁ with ⟨ref, -, e⟩ | ⟨rsp₁, n, hop₁, e⟩ <;> rw [e] at h <;> cases h
  obtain ⟨rsp₂, hop₂, hagree⟩ :=
    op_agree (requestFraction_ne_zero s₁.nanDraws r) (requestFraction_ne_zero s₂.nanDraws r) hop₁
  obtain ⟨t₂, hstep, hrest, -, hresp⟩ := step_next_of_op hu₂ hq₂ hop₂
  exact ⟨rsp₁, rsp₂, t₂, hstep, rfl, hresp, rfl, hrest, hagree⟩

/-- Settles O57: both steps answer as `op` does, on draws that may differ. -/
theorem reissuingIsSafe : Obligations.ReissuingIsSafe := by
  intro s₁ s₂ t₁ r rest₁ rest₂ hu₁ hu₂ hq₁ hq₂ h
  obtain ⟨rsp₁, rsp₂, t₂, hstep, hresp₁, hresp₂, -, -, hagree⟩ := step_agree hu₁ hu₂ hq₁ hq₂ h
  exact ⟨rsp₁, rsp₂, t₂, hstep, hresp₁, hresp₂, hagree⟩

/-- A request submitted to a block with nothing in flight is its only one. -/
theorem submit_inFlight_of_nil {s : State} (hq : s.inFlight = []) (r : Request) :
    (s.submit r).inFlight = [r] := by
  rw [State.submit_inFlight, hq, List.nil_append]

/-- Settles O60: the block after reset is one more block with nothing in flight. -/
theorem firstRequestIsLikeAnyOther : Obligations.FirstRequestIsLikeAnyOther := by
  intro r s t hu hq h
  obtain ⟨rsp, rsp', t', hstep, hresp, hresp', hrest, hrest', hagree⟩ :=
    step_agree (s₁ := s.submit r) (s₂ := State.reset.submit r) hu rfl
      (submit_inFlight_of_nil hq r) (submit_inFlight_of_nil rfl r) h
  exact ⟨rsp, rsp', t', hstep, hresp, hresp', hrest, hrest', hagree⟩

end Sys2Proof.Machine
